-- ==== Sys2Proof/Word.lean ====
section
/-! DEFINITION. The word types of chip8ulator CORE (00_scope.md R6, R8, R9): every value is an
unsigned bit vector of a stated width. -/

namespace Sys2Proof

/-- A memory byte, a general register, a timer, an immediate `kk` (`REG_W`, `TIMER_W` = 8, R6). -/
abbrev Byte := BitVec 8

/-- An instruction word, `pc`, `I` or a stack slot (`PC_W`, `I_W`, `STACK_W` = 16, R6). -/
abbrev Word := BitVec 16

/-- The number of a general register, 0 to 15: the fields `x` and `y` (30_encoding.md R91, R93:
every value names a real register). -/
abbrev RegIdx := Fin 16

/-- `VF`, general register 15, the only flag (10_state.md R23). -/
def VF : RegIdx := 15

end Sys2Proof
end

