-- ==== Sys2Proof/Syntax.lean ====
section
/-! DEFINITION. The instructions: the closed list of 25 operations of 30_encoding.md R95, one
constructor for each row of spec/opcode_table.json. Operands have the widths of R91, so no term
holds an operand that no word could carry. -/

namespace Sys2Proof

/-- A decoded instruction (30_encoding.md R95). `x` and `y` are register numbers, `kk` an immediate
byte, `addr` a 12-bit address, `n` a row count. -/
inductive Instr where
  /-- `CLS` (44_display.md R211). -/
  | cls
  /-- `RET` (41_control_flow.md R141). -/
  | ret
  /-- `JP addr` (R143). -/
  | jp (addr : BitVec 12)
  /-- `CALL addr` (R142). -/
  | call (addr : BitVec 12)
  /-- `SE Vx,kk` (R144). -/
  | se (x : RegIdx) (kk : Byte)
  /-- `SNE Vx,kk` (R145). -/
  | sne (x : RegIdx) (kk : Byte)
  /-- `LD Vx,kk` (42_alu.md R161). -/
  | ldImm (x : RegIdx) (kk : Byte)
  /-- `ADD Vx,kk` (R163). -/
  | addImm (x : RegIdx) (kk : Byte)
  /-- `LD Vx,Vy` (R162). -/
  | ldReg (x y : RegIdx)
  /-- `XOR Vx,Vy` (R164). -/
  | xor (x y : RegIdx)
  /-- `ADD Vx,Vy` (R165). -/
  | addReg (x y : RegIdx)
  /-- `SUB Vx,Vy` (R166). -/
  | sub (x y : RegIdx)
  /-- `SHR Vx` (R168); the word's `y` field is ignored and is no operand (R100, log 11). -/
  | shr (x : RegIdx)
  /-- `SUBN Vx,Vy` (R167). -/
  | subn (x y : RegIdx)
  /-- `SHL Vx` (R169); the word's `y` field is ignored and is no operand (R100, log 11). -/
  | shl (x : RegIdx)
  /-- `LD I,addr` (43_index_memory.md R191). -/
  | ldI (addr : BitVec 12)
  /-- `RND Vx,kk` (42_alu.md R170). -/
  | rnd (x : RegIdx) (kk : Byte)
  /-- `DRW Vx,Vy,n` (44_display.md R213). -/
  | drw (x y : RegIdx) (n : Fin 16)
  /-- `LD Vx,K` (45_key_timer.md R231). -/
  | ldKey (x : RegIdx)
  /-- `LD DT,Vx` (R232). -/
  | ldDT (x : RegIdx)
  /-- `ADD I,Vx` (43_index_memory.md R192). -/
  | addI (x : RegIdx)
  /-- `LD F,Vx` (R196). -/
  | ldF (x : RegIdx)
  /-- `LD B,Vx` (R195). -/
  | ldB (x : RegIdx)
  /-- `LD [I],Vx` (R193). -/
  | stBlock (x : RegIdx)
  /-- `LD Vx,[I]` (R194). -/
  | ldBlock (x : RegIdx)
  deriving DecidableEq, Repr

end Sys2Proof
end

