-- ==== Sys2Proof/WellFormed.lean ====
section
/-! DEFINITION. Which written instructions are well formed (30_encoding.md R105): a line is a
mnemonic and a list of operands, and it stands for an instruction exactly if it has one of the 25
syntactic forms of R95 and every literal fits its field (R91). An `Instr` itself is well formed by
its types: the checks are made here, once, where a line becomes an `Instr`. -/

namespace Sys2Proof

/-- The mnemonics of R95. -/
inductive Mnemonic where
  | CLS | RET | JP | CALL | SE | SNE | LD | ADD | SUB | SUBN | SHR | SHL | XOR | RND | DRW
  deriving DecidableEq, Repr

/-- The operands of R105: `V` and a register number, a numeric literal, or a fixed token. -/
inductive AsmOperand where
  /-- `V0` to `VF`. -/
  | v (n : Nat)
  /-- A literal: `kk`, `n` or `addr` as the form says. -/
  | lit (n : Nat)
  /-- `I`. -/
  | idx
  /-- `[I]`. -/
  | atI
  /-- `DT`. -/
  | dt
  /-- `K`. -/
  | k
  /-- `B`. -/
  | b
  /-- `F`. -/
  | f
  deriving DecidableEq, Repr

/-- One instruction as it is written, destination first (R105). -/
structure AsmLine where
  mnemonic : Mnemonic
  operands : List AsmOperand
  deriving DecidableEq, Repr

/-- Why a line is no instruction. -/
inductive AsmError where
  /-- Mnemonic and operands have none of the 25 forms of R95. -/
  | noSuchForm
  /-- There is no such register: R21 has 16. -/
  | registerRange
  /-- `kk` is not an 8-bit value (R91). -/
  | byteRange
  /-- `n` is not a 4-bit value (R91). -/
  | nibbleRange
  /-- `addr` is not a 12-bit value (R91). -/
  | addrRange
  deriving DecidableEq, Repr

/-- A register operand. -/
def asmReg (n : Nat) : Except AsmError RegIdx :=
  if h : n < 16 then .ok ⟨n, h⟩ else .error .registerRange

/-- An immediate byte. -/
def asmByte (n : Nat) : Except AsmError Byte :=
  if n < 256 then .ok (BitVec.ofNat 8 n) else .error .byteRange

/-- A row count. -/
def asmNibble (n : Nat) : Except AsmError (Fin 16) :=
  if h : n < 16 then .ok ⟨n, h⟩ else .error .nibbleRange

/-- An address. -/
def asmAddr (n : Nat) : Except AsmError (BitVec 12) :=
  if n < 4096 then .ok (BitVec.ofNat 12 n) else .error .addrRange

/-- The instruction a written line stands for, or the check it fails (R105, R95, R91). -/
def assemble (l : AsmLine) : Except AsmError Instr :=
  match l.mnemonic, l.operands with
  | .CLS, [] => .ok .cls
  | .RET, [] => .ok .ret
  | .JP, [.lit a] => do return .jp (← asmAddr a)
  | .CALL, [.lit a] => do return .call (← asmAddr a)
  | .SE, [.v x, .lit kk] => do return .se (← asmReg x) (← asmByte kk)
  | .SNE, [.v x, .lit kk] => do return .sne (← asmReg x) (← asmByte kk)
  | .LD, [.idx, .lit a] => do return .ldI (← asmAddr a)
  | .LD, [.v x, .lit kk] => do return .ldImm (← asmReg x) (← asmByte kk)
  | .LD, [.v x, .v y] => do return .ldReg (← asmReg x) (← asmReg y)
  | .ADD, [.v x, .lit kk] => do return .addImm (← asmReg x) (← asmByte kk)
  | .ADD, [.v x, .v y] => do return .addReg (← asmReg x) (← asmReg y)
  | .SUB, [.v x, .v y] => do return .sub (← asmReg x) (← asmReg y)
  | .SUBN, [.v x, .v y] => do return .subn (← asmReg x) (← asmReg y)
  | .SHR, [.v x] => do return .shr (← asmReg x)
  | .SHL, [.v x] => do return .shl (← asmReg x)
  | .XOR, [.v x, .v y] => do return .xor (← asmReg x) (← asmReg y)
  | .RND, [.v x, .lit kk] => do return .rnd (← asmReg x) (← asmByte kk)
  | .DRW, [.v x, .v y, .lit n] => do return .drw (← asmReg x) (← asmReg y) (← asmNibble n)
  | .ADD, [.idx, .v x] => do return .addI (← asmReg x)
  | .LD, [.v x, .atI] => do return .ldBlock (← asmReg x)
  | .LD, [.atI, .v x] => do return .stBlock (← asmReg x)
  | .LD, [.b, .v x] => do return .ldB (← asmReg x)
  | .LD, [.f, .v x] => do return .ldF (← asmReg x)
  | .LD, [.v x, .k] => do return .ldKey (← asmReg x)
  | .LD, [.dt, .v x] => do return .ldDT (← asmReg x)
  | _, _ => .error .noSuchForm

/-- The check: the line stands for an instruction. -/
def AsmLine.wellFormed (l : AsmLine) : Bool :=
  match assemble l with
  | .ok _ => true
  | .error _ => false

/-- How an instruction is written (R95, R105). -/
def Instr.toAsm : Instr → AsmLine
  | .cls => ⟨.CLS, []⟩
  | .ret => ⟨.RET, []⟩
  | .jp a => ⟨.JP, [.lit a.toNat]⟩
  | .call a => ⟨.CALL, [.lit a.toNat]⟩
  | .se x kk => ⟨.SE, [.v x, .lit kk.toNat]⟩
  | .sne x kk => ⟨.SNE, [.v x, .lit kk.toNat]⟩
  | .ldImm x kk => ⟨.LD, [.v x, .lit kk.toNat]⟩
  | .addImm x kk => ⟨.ADD, [.v x, .lit kk.toNat]⟩
  | .ldReg x y => ⟨.LD, [.v x, .v y]⟩
  | .xor x y => ⟨.XOR, [.v x, .v y]⟩
  | .addReg x y => ⟨.ADD, [.v x, .v y]⟩
  | .sub x y => ⟨.SUB, [.v x, .v y]⟩
  | .shr x => ⟨.SHR, [.v x]⟩
  | .subn x y => ⟨.SUBN, [.v x, .v y]⟩
  | .shl x => ⟨.SHL, [.v x]⟩
  | .ldI a => ⟨.LD, [.idx, .lit a.toNat]⟩
  | .rnd x kk => ⟨.RND, [.v x, .lit kk.toNat]⟩
  | .drw x y n => ⟨.DRW, [.v x, .v y, .lit n]⟩
  | .ldKey x => ⟨.LD, [.v x, .k]⟩
  | .ldDT x => ⟨.LD, [.dt, .v x]⟩
  | .addI x => ⟨.ADD, [.idx, .v x]⟩
  | .ldF x => ⟨.LD, [.f, .v x]⟩
  | .ldB x => ⟨.LD, [.b, .v x]⟩
  | .stBlock x => ⟨.LD, [.atI, .v x]⟩
  | .ldBlock x => ⟨.LD, [.v x, .atI]⟩

/-- An instruction is well formed if the line it is written as passes every check. -/
def Instr.wellFormed (i : Instr) : Bool := i.toAsm.wellFormed

end Sys2Proof
end

