-- ==== Sys2Proof/Decode.lean ====
section
/-! DEFINITION. The decoder of 30_encoding.md R97, total on any bytes and rejecting by name; the
opcode map of R96; the encoder, from the layouts of R92. The numeric selectors other than 0x00E0,
0xA and 0xD are the spec's own from general knowledge (R96; log 9). -/

namespace Sys2Proof

/-- `op`, `w[15:12]` (R91). -/
def opField (w : Word) : BitVec 4 := w.extractLsb' 12 4

/-- `x`, `w[11:8]` (R91). -/
def xField (w : Word) : RegIdx := (w.extractLsb' 8 4).toFin

/-- `y`, `w[7:4]` (R91). -/
def yField (w : Word) : RegIdx := (w.extractLsb' 4 4).toFin

/-- `n`, `w[3:0]`: the sub-selector of family 8 (R91). -/
def nField (w : Word) : BitVec 4 := w.extractLsb' 0 4

/-- `kk`, `w[7:0]` (R91). -/
def kkField (w : Word) : Byte := w.extractLsb' 0 8

/-- `addr`, `w[11:0]` (R91). -/
def addrField (w : Word) : BitVec 12 := w.extractLsb' 0 12

/-- Family 8: the low nibble selects (R100). -/
def decodeFamily8 (w : Word) : Option Instr :=
  match nField w with
  | 0x0#4 => some (.ldReg (xField w) (yField w))
  | 0x3#4 => some (.xor (xField w) (yField w))
  | 0x4#4 => some (.addReg (xField w) (yField w))
  | 0x5#4 => some (.sub (xField w) (yField w))
  | 0x6#4 => some (.shr (xField w))
  | 0x7#4 => some (.subn (xField w) (yField w))
  | 0xE#4 => some (.shl (xField w))
  | _ => none

/-- Family F: the low byte selects (R101). -/
def decodeFamilyF (w : Word) : Option Instr :=
  match kkField w with
  | 0x0A#8 => some (.ldKey (xField w))
  | 0x15#8 => some (.ldDT (xField w))
  | 0x1E#8 => some (.addI (xField w))
  | 0x29#8 => some (.ldF (xField w))
  | 0x33#8 => some (.ldB (xField w))
  | 0x55#8 => some (.stBlock (xField w))
  | 0x65#8 => some (.ldBlock (xField w))
  | _ => none

/-- `Decode(w)` of R97; `none` is "unknown". Family 0 compares all 16 bits (R99, log 10). -/
def decodeWord (w : Word) : Option Instr :=
  match opField w with
  | 0x0#4 => if w = 0x00E0#16 then some .cls else if w = 0x00EE#16 then some .ret else none
  | 0x1#4 => some (.jp (addrField w))
  | 0x2#4 => some (.call (addrField w))
  | 0x3#4 => some (.se (xField w) (kkField w))
  | 0x4#4 => some (.sne (xField w) (kkField w))
  | 0x6#4 => some (.ldImm (xField w) (kkField w))
  | 0x7#4 => some (.addImm (xField w) (kkField w))
  | 0x8#4 => decodeFamily8 w
  | 0xA#4 => some (.ldI (addrField w))
  | 0xC#4 => some (.rnd (xField w) (kkField w))
  | 0xD#4 => some (.drw (xField w) (yField w) (nField w).toFin)
  | 0xF#4 => decodeFamilyF w
  | _ => none

/-- The instruction word of two bytes: the byte at the lower address is the high byte (20_memory.md
R69). -/
def wordOfBytes (hi lo : Byte) : Word := hi ++ lo

/-- The high byte, stored at the lower address (R69). -/
def highByte (w : Word) : Byte := w.extractLsb' 8 8

/-- The low byte, stored at the higher address (R69). -/
def lowByte (w : Word) : Byte := w.extractLsb' 0 8

/-- Why bytes are no instruction. -/
inductive DecodeReject where
  /-- Fewer than two bytes are there (a case of the model's byte-list form only, log 21). -/
  | truncated
  /-- The word is none of the 25 operations (R103). -/
  | unknownOpcode (word : Word)
  deriving DecidableEq, Repr

/-- Decode the first instruction of a byte list, answering it with the bytes after it (R90: every
instruction is exactly two bytes). -/
def decode : List Byte → Except DecodeReject (Instr × List Byte)
  | hi :: lo :: rest =>
    match decodeWord (wordOfBytes hi lo) with
    | some i => .ok (i, rest)
    | none => .error (.unknownOpcode (wordOfBytes hi lo))
  | _ => .error .truncated

/-- Format `NNN` (R92). -/
def packNNN (op : BitVec 4) (addr : BitVec 12) : Word := op ++ addr

/-- Format `XKK` (R92). -/
def packXKK (op : BitVec 4) (x : RegIdx) (kk : Byte) : Word := op ++ BitVec.ofFin (w := 4) x ++ kk

/-- Formats `XY` and `XYN` (R92). -/
def packXYN (op : BitVec 4) (x y n : Fin 16) : Word :=
  op ++ BitVec.ofFin (w := 4) x ++ BitVec.ofFin (w := 4) y ++ BitVec.ofFin (w := 4) n

/-- The word of an instruction (R92, R96). The ignored `y` field of the shifts is 0 (R105). -/
def encodeWord : Instr → Word
  | .cls => 0x00E0#16
  | .ret => 0x00EE#16
  | .jp addr => packNNN 0x1 addr
  | .call addr => packNNN 0x2 addr
  | .se x kk => packXKK 0x3 x kk
  | .sne x kk => packXKK 0x4 x kk
  | .ldImm x kk => packXKK 0x6 x kk
  | .addImm x kk => packXKK 0x7 x kk
  | .ldReg x y => packXYN 0x8 x y 0x0
  | .xor x y => packXYN 0x8 x y 0x3
  | .addReg x y => packXYN 0x8 x y 0x4
  | .sub x y => packXYN 0x8 x y 0x5
  | .shr x => packXYN 0x8 x 0 0x6
  | .subn x y => packXYN 0x8 x y 0x7
  | .shl x => packXYN 0x8 x 0 0xE
  | .ldI addr => packNNN 0xA addr
  | .rnd x kk => packXKK 0xC x kk
  | .drw x y n => packXYN 0xD x y n
  | .ldKey x => packXKK 0xF x 0x0A
  | .ldDT x => packXKK 0xF x 0x15
  | .addI x => packXKK 0xF x 0x1E
  | .ldF x => packXKK 0xF x 0x29
  | .ldB x => packXKK 0xF x 0x33
  | .stBlock x => packXKK 0xF x 0x55
  | .ldBlock x => packXKK 0xF x 0x65

/-- The bytes of an instruction, in the order memory holds them (R69, R90). -/
def encode (i : Instr) : List Byte := [highByte (encodeWord i), lowByte (encodeWord i)]

/-- A row of the opcode map (R96), with the table's mnemonic. -/
structure OpcodeRow where
  mnemonic : String
  pattern : Word
  mask : Word
  deriving DecidableEq, Repr

/-- "A word `w` selects the operation of a row iff `w & mask = match`" (R96). -/
def OpcodeRow.selects (r : OpcodeRow) (w : Word) : Bool := w &&& r.mask == r.pattern

/-- The row of R96 an instruction belongs to. -/
def Instr.row : Instr → OpcodeRow
  | .cls => ⟨"CLS", 0x00E0, 0xFFFF⟩
  | .ret => ⟨"RET", 0x00EE, 0xFFFF⟩
  | .jp _ => ⟨"JP_addr", 0x1000, 0xF000⟩
  | .call _ => ⟨"CALL_addr", 0x2000, 0xF000⟩
  | .se _ _ => ⟨"SE_Vx_kk", 0x3000, 0xF000⟩
  | .sne _ _ => ⟨"SNE_Vx_kk", 0x4000, 0xF000⟩
  | .ldImm _ _ => ⟨"LD_Vx_kk", 0x6000, 0xF000⟩
  | .addImm _ _ => ⟨"ADD_Vx_kk", 0x7000, 0xF000⟩
  | .ldReg _ _ => ⟨"LD_Vx_Vy", 0x8000, 0xF00F⟩
  | .xor _ _ => ⟨"XOR_Vx_Vy", 0x8003, 0xF00F⟩
  | .addReg _ _ => ⟨"ADD_Vx_Vy", 0x8004, 0xF00F⟩
  | .sub _ _ => ⟨"SUB_Vx_Vy", 0x8005, 0xF00F⟩
  | .shr _ => ⟨"SHR_Vx", 0x8006, 0xF00F⟩
  | .subn _ _ => ⟨"SUBN_Vx_Vy", 0x8007, 0xF00F⟩
  | .shl _ => ⟨"SHL_Vx", 0x800E, 0xF00F⟩
  | .ldI _ => ⟨"LD_I_addr", 0xA000, 0xF000⟩
  | .rnd _ _ => ⟨"RND_Vx_kk", 0xC000, 0xF000⟩
  | .drw _ _ _ => ⟨"DRW_Vx_Vy_n", 0xD000, 0xF000⟩
  | .ldKey _ => ⟨"LD_Vx_K", 0xF00A, 0xF0FF⟩
  | .ldDT _ => ⟨"LD_DT_Vx", 0xF015, 0xF0FF⟩
  | .addI _ => ⟨"ADD_I_Vx", 0xF01E, 0xF0FF⟩
  | .ldF _ => ⟨"LD_F_Vx", 0xF029, 0xF0FF⟩
  | .ldB _ => ⟨"LD_B_Vx", 0xF033, 0xF0FF⟩
  | .stBlock _ => ⟨"LD__I__Vx", 0xF055, 0xF0FF⟩
  | .ldBlock _ => ⟨"LD_Vx__I", 0xF065, 0xF0FF⟩

/-- The opcode map of R96, row by row in its order. -/
def opcodeMap : List OpcodeRow :=
  [Instr.cls.row, Instr.ret.row, (Instr.jp 0).row, (Instr.call 0).row, (Instr.se 0 0).row,
    (Instr.sne 0 0).row, (Instr.ldImm 0 0).row, (Instr.addImm 0 0).row] ++
  [(Instr.ldReg 0 0).row, (Instr.xor 0 0).row, (Instr.addReg 0 0).row, (Instr.sub 0 0).row,
    (Instr.shr 0).row, (Instr.subn 0 0).row, (Instr.shl 0).row] ++
  [(Instr.ldI 0).row, (Instr.rnd 0 0).row, (Instr.drw 0 0 0).row] ++
  [(Instr.ldKey 0).row, (Instr.ldDT 0).row, (Instr.addI 0).row, (Instr.ldF 0).row,
    (Instr.ldB 0).row, (Instr.stBlock 0).row, (Instr.ldBlock 0).row]

/-- The word whose `nbits` low bits are those of `w` and whose higher bits are 0. -/
def tableWord (nbits w : Nat) : Word := BitVec.ofNat 16 (w % 2 ^ nbits)

/-- The instruction the decoder reads from a table word, laid out in memory as the hardware stores
it: the high byte first (R69). -/
def decodeTableWord (nbits w : Nat) : Option Instr :=
  match decode [highByte (tableWord nbits w), lowByte (tableWord nbits w)] with
  | .ok (i, _) => some i
  | .error _ => none

end Sys2Proof
end

