-- ==== Sys2Proof/Config.lean ====
section
/-! DEFINITION. What is fixed for the machine (00_scope.md R6), the open parameters `FONT` and
`VF_ORDER` (R7), which every state carries, and the free value behind the random byte. The defaults
of the two open parameters stand in Machine/Params.lean. -/

namespace Sys2Proof.Config

/-- `MEM_SIZE`: bytes of memory, addresses 0 to 4095 (R6). -/
def memSize : Nat := 4096

/-- `PROG_BASE`: address of the first program byte and reset value of `pc` (R6). -/
def progBase : Nat := 0x200

/-- `PROG_MAX`: largest program in bytes (R6). -/
def progMax : Nat := 3584

/-- `GLYPH_BYTES`: bytes per glyph (R6). -/
def glyphBytes : Nat := 5

/-- `FONT_BYTES`: bytes of the glyph table, which starts at `FONT_BASE` = 0 (R6). -/
def fontBytes : Nat := 80

/-- `STACK_DEPTH`: return addresses the call stack holds (R6). -/
def stackDepth : Nat := 16

/-- `FB_W`: framebuffer columns (R6). -/
def fbWidth : Nat := 64

/-- `FB_H`: framebuffer rows (R6). -/
def fbHeight : Nat := 32

/-- `INSTR_BYTES`: bytes per instruction (R6). -/
def instrBytes : Nat := 2

/-- The type of the open parameter `VF_ORDER` (R7, 42_alu.md R172): which of the two writes of a
flag-writing operation comes last, and so survives when the destination is register 15. -/
inductive VFOrder where
  | flagLast
  | resultLast
  deriving DecidableEq, Repr

/-- The type of the open parameter `FONT` (R7, 20_memory.md R65): 80 bytes, the glyph of digit `d`
at offset `5 × d`. -/
abbrev Font := Vector Byte 80

/-- The open parameters of R7 that are values: what a machine is built with, and keeps. -/
structure Params where
  /-- `FONT`. -/
  font : Font
  /-- `VF_ORDER`. -/
  vfOrder : VFOrder
  deriving DecidableEq, Repr

/-- FREE VALUE (DESIGN CHOICE, log 1). The `k`-th random byte that the host presents when nothing
else says which byte it presents: no body, so nothing can be proved of its value (42_alu.md R170:
"a free input under no law"). -/
opaque randomByte : Nat → Byte

end Sys2Proof.Config
end

