-- ==== Sys2Proof/Machine/Params.lean ====
section
/-! DEFINITION. The defaults of the open parameters of 00_scope.md R7: `FONT` (20_memory.md R66, from
the spec's general knowledge, log 3) and `VF_ORDER` (42_alu.md R172, log 2). Only `State.reset` uses
them: every other definition takes the parameters from the state. -/

namespace Sys2Proof.Machine

/-- Glyphs 0 to 7, five bytes each (R66). -/
def fontLow : List Byte :=
  [0xF0, 0x90, 0x90, 0x90, 0xF0] ++ [0x20, 0x60, 0x20, 0x20, 0x70] ++
  [0xF0, 0x10, 0xF0, 0x80, 0xF0] ++ [0xF0, 0x10, 0xF0, 0x10, 0xF0] ++
  [0x90, 0x90, 0xF0, 0x10, 0x10] ++ [0xF0, 0x80, 0xF0, 0x10, 0xF0] ++
  [0xF0, 0x80, 0xF0, 0x90, 0xF0] ++ [0xF0, 0x10, 0x20, 0x40, 0x40]

/-- Glyphs 8 to F, five bytes each (R66). -/
def fontHigh : List Byte :=
  [0xF0, 0x90, 0xF0, 0x90, 0xF0] ++ [0xF0, 0x90, 0xF0, 0x10, 0xF0] ++
  [0xF0, 0x90, 0xF0, 0x90, 0x90] ++ [0xE0, 0x90, 0xE0, 0x90, 0xE0] ++
  [0xF0, 0x80, 0x80, 0x80, 0xF0] ++ [0xE0, 0x90, 0x90, 0x90, 0xE0] ++
  [0xF0, 0x80, 0xF0, 0x80, 0xF0] ++ [0xF0, 0x80, 0xF0, 0x80, 0x80]

/-- The default of `FONT`, glyph `d` at offset `5 × d` (R64, R66). -/
def font : Config.Font := ⟨(fontLow ++ fontHigh).toArray, rfl⟩

/-- The default of `VF_ORDER`: the flag is written last (42_alu.md R172). -/
def vfOrder : Config.VFOrder := .flagLast

/-- Both defaults. -/
def defaultParams : Config.Params := ⟨font, vfOrder⟩

/-- `FONT[a]` for `a` in 0 to 79, and 0 from there on. -/
def fontByte (f : Config.Font) (a : Nat) : Byte := (f[a]?).getD 0

end Sys2Proof.Machine
end

