-- ==== Sys2Proof/Machine/State.lean ====
section
/-! DEFINITION. The whole state of the core (10_state.md R20: "the following, and nothing else"),
the open parameters (00_scope.md R7, log 26), the two fields of the model's own that carry the
random-byte input (log 1), the reasons a step can
stop (60_exceptions.md R260) and the state after reset (10_state.md R37, 70_reset_and_hazards.md
R290). -/

namespace Sys2Proof.Machine

/-- `mem` (10_state.md R34): the bytes that differ from the reset contents, addresses strictly
rising (`Memory.wf`). What an unlisted address reads as is `Memory.resetByte`. -/
abbrev Memory := List Host.Cell

/-- `FB` (10_state.md R32): 32 rows of 64 cells, the top row first; bit `x` of row `y` is the cell
`FB[x, y]` (log 15). -/
abbrev Framebuffer := Vector (BitVec 64) 32

/-- The key-wait latch (10_state.md R31). -/
structure KeyWait where
  /-- `wait.active`: `AwaitingKey` if true, `Running` if false. -/
  active : Bool
  /-- `wait.reg`: the register that receives the key while `active`. -/
  reg : RegIdx
  deriving DecidableEq, Repr

/-- The state of the core. -/
structure State where
  /-- `V[0]` to `V[15]` (R21). -/
  V : Vector Byte 16
  /-- The index register (R24). -/
  I : Word
  /-- The program counter (R25). -/
  pc : Word
  /-- The stack pointer: how many return addresses are held, 0 to 16 (R27). -/
  sp : Fin 17
  /-- The call-stack slots `S[1]` to `S[16]`; slot `k` stands at index `k − 1` (R28, log 14). -/
  S : Vector Word 16
  /-- The delay timer (R29). -/
  DT : Byte
  /-- The sound timer (R30). -/
  ST : Byte
  /-- The key-wait latch (R31). -/
  wait : KeyWait
  /-- The framebuffer (R32). -/
  FB : Framebuffer
  /-- The redraw flag (R33). -/
  redraw : Bool
  /-- The memory (R34). -/
  mem : Memory
  /-- The open parameters `FONT` and `VF_ORDER` (00_scope.md R7) the machine is built with. They are
  arguments of the model, no state of the core: nothing changes them (logs 2, 3, 26). -/
  cfg : Config.Params
  /-- THE MODEL'S OWN (log 1): the random byte the host presents with the coming step, the input
  `rnd` of 40_step_cycle.md R120. -/
  rnd : Byte
  /-- THE MODEL'S OWN (log 1): how many free random bytes have been presented so far. -/
  draws : Nat
  deriving DecidableEq, Repr

/-- The five errors (60_exceptions.md R260, a closed list). An error is returned to the host with
the state unchanged and sends control nowhere inside the core (R268), so a step that raises one ends
the run (R270). Each is the hardware's own error, so stopping there is safe (log 7). -/
inductive Fault where
  /-- Raised by `load` only, when the program is longer than 3584 bytes (R261). Safe. -/
  | romTooLarge (size : Nat)
  /-- Raised by the fetch (R262) and by `LD [I],Vx`, `LD Vx,[I]`, `LD B,Vx` and `DRW` (R263), with
  the lowest address of the access above 4095. Safe. -/
  | memOOB (address : Nat)
  /-- Raised by the decode stage of a step: the word is none of the 25 operations (R264). Safe. -/
  | unknownOpcode (word : Word)
  /-- Raised by `CALL` with 16 return addresses held (R265). Safe. -/
  | stackOverflow
  /-- Raised by `RET` with none held (R266). Safe. -/
  | stackUnderflow
  deriving DecidableEq, Repr

/-- Reasons to give no meaning. -/
inductive Refusal where
  /-- An instruction whose meaning is not written; no arm of `exec` uses it, since all 25 are. Safe:
  nothing can be proved of a step that is refused. -/
  | notModelled (mnemonic : String)
  deriving DecidableEq, Repr

/-- What a meaning and a step answer. -/
abbrev Result := Host.Outcome State Fault Refusal

/-- The state at machine construction with the given parameters, which is the state after loading the
empty program (70_reset_and_hazards.md R290, R37). All values but `pc` and the glyphs in memory are
the spec's decisions D2 and D3 (logs 4 and 5); `rnd` and `draws` are the model's (log 1). -/
def State.resetWith (p : Config.Params) : State where
  V := Vector.replicate 16 0
  I := 0
  pc := 0x200
  sp := 0
  S := Vector.replicate 16 0
  DT := 0
  ST := 0
  wait := ⟨false, 0⟩
  FB := Vector.replicate 32 0
  redraw := false
  mem := []
  cfg := p
  rnd := Config.randomByte 0
  draws := 1

/-- The reset state with the defaults of the open parameters (R7; logs 2 and 3). -/
def State.reset : State := State.resetWith defaultParams

end Sys2Proof.Machine
end

