-- ==== Sys2Proof/Machine/Memory.lean ====
section
/-! DEFINITION. Memory as a canonical list of the bytes that differ from the reset contents
(10_state.md R34, R37; 20_memory.md R60, R62), and the bounds check of 20_memory.md R70 and R71. The
reset contents depend on the parameter `FONT`, so every function takes it. -/

namespace Sys2Proof.Machine

/-- What an address holds after reset with no program: the glyph table at 0 to 79, zero from there
on (10_state.md R37; log 5). -/
def Memory.resetByte (f : Config.Font) (a : Nat) : Byte :=
  if a < Config.fontBytes then fontByte f a else 0

/-- The listed byte of an address, if it is listed. -/
def Memory.lookup : Memory → Nat → Option Byte
  | [], _ => none
  | (a', b) :: m, a => if a = a' then some b else Memory.lookup m a

/-- `MemRead(a, 1)` (00_scope.md R11). The bounds check has been made before: see
`outOfRange` (log 20). -/
def Memory.read (f : Config.Font) (m : Memory) (a : Nat) : Byte :=
  (Memory.lookup m a).getD (Memory.resetByte f a)

/-- List a byte in its place. -/
def Memory.insertCell : Memory → Nat → Byte → Memory
  | [], a, b => [(a, b)]
  | (a', b') :: m, a, b =>
    if a < a' then (a, b) :: (a', b') :: m
    else if a = a' then (a, b) :: m
    else (a', b') :: Memory.insertCell m a b

/-- Take an address off the list. -/
def Memory.eraseCell : Memory → Nat → Memory
  | [], _ => []
  | (a', b') :: m, a =>
    if a = a' then Memory.eraseCell m a else (a', b') :: Memory.eraseCell m a

/-- `MemWrite(a, 1, b)` (00_scope.md R11), keeping the canonical form. The bounds check has been
made before (`outOfRange`); an address that does not exist holds nothing (log 20). -/
def Memory.write (f : Config.Font) (m : Memory) (a : Nat) (b : Byte) : Memory :=
  if a < Config.memSize then
    if b = Memory.resetByte f a then Memory.eraseCell m a else Memory.insertCell m a b
  else m

/-- The bytes of the `k` consecutive addresses from `base`, in ascending order. -/
def Memory.loadRun (f : Config.Font) (m : Memory) (base : Nat) : Nat → List Byte
  | 0 => []
  | k + 1 => m.read f base :: Memory.loadRun f m (base + 1) k

/-- Write bytes to consecutive addresses from `base`, in ascending order. -/
def Memory.storeRun (f : Config.Font) (m : Memory) (base : Nat) : List Byte → Memory
  | [] => m
  | b :: bs => Memory.storeRun f (m.write f base b) (base + 1) bs

/-- The cells of a program placed from address `base` over the reset contents (46_host_interface.md
R241). -/
def Memory.ofProgram (f : Config.Font) (base : Nat) : List Byte → Memory
  | [] => []
  | b :: bs =>
    if b = Memory.resetByte f base then Memory.ofProgram f (base + 1) bs
    else (base, b) :: Memory.ofProgram f (base + 1) bs

/-- The canonical form from address `lo` on. -/
def Memory.wfFrom (f : Config.Font) (lo : Nat) : Memory → Bool
  | [] => true
  | (a, b) :: m =>
    decide (lo ≤ a) && decide (a < Config.memSize) && decide (b ≠ Memory.resetByte f a) &&
      Memory.wfFrom f (a + 1) m

/-- The canonical form: addresses strictly rising, all of them in the address space, and no entry
equal to what an unlisted address reads as. Equal memories are then equal lists. -/
def Memory.wf (f : Config.Font) (m : Memory) : Bool := Memory.wfFrom f 0 m

/-- The bounds check of a run of `k` bytes at `base` (20_memory.md R70 for the fetch, R71 for data):
the address that `MemOOB` reports, if the run leaves the address space. Sums are exact; a run of no
bytes is always in range. -/
def outOfRange (base k : Nat) : Option Nat :=
  if 1 ≤ k ∧ 4095 < base + k - 1 then some (max base 4096) else none

end Sys2Proof.Machine
end

