-- ==== Sys2Proof/Machine/Ops.lean ====
section
/-! DEFINITION. The named operations over the state that the meanings share: registers, stack,
raising an error, the bounds-checked run, the fetch, the random byte. -/

namespace Sys2Proof.Machine

/-- `V[x]` (00_scope.md R10). -/
def State.getV (s : State) (x : RegIdx) : Byte := s.V[x]

/-- `V[x] <- b`. No register is hard-wired (10_state.md R21). -/
def State.setV (s : State) (x : RegIdx) (b : Byte) : State := { s with V := s.V.set x b }

/-- `I <- w` (10_state.md R24). -/
def State.setI (s : State) (w : Word) : State := { s with I := w }

/-- `pc <- w` (10_state.md R25). -/
def State.setPc (s : State) (w : Word) : State := { s with pc := w }

/-- `DT <- b` (10_state.md R29). -/
def State.setDT (s : State) (b : Byte) : State := { s with DT := b }

/-- `ST <- b` (10_state.md R30). -/
def State.setST (s : State) (b : Byte) : State := { s with ST := b }

/-- Set the key-wait latch (10_state.md R31). -/
def State.setWait (s : State) (k : KeyWait) : State := { s with wait := k }

/-- Replace the framebuffer (10_state.md R32). -/
def State.setFB (s : State) (fb : Framebuffer) : State := { s with FB := fb }

/-- `redraw <- b` (10_state.md R33). -/
def State.setRedraw (s : State) (b : Bool) : State := { s with redraw := b }

/-- Replace the memory. -/
def State.setMem (s : State) (m : Memory) : State := { s with mem := m }

/-- `MemRead(a, 1)` of the machine (00_scope.md R11). -/
def State.byte (s : State) (a : Nat) : Byte := s.mem.read s.cfg.font a

/-- The bytes of the `k` consecutive addresses from `base`. -/
def State.bytesAt (s : State) (base k : Nat) : List Byte := s.mem.loadRun s.cfg.font base k

/-- Write bytes to consecutive addresses from `base`, in ascending order. -/
def State.storeBytes (s : State) (base : Nat) (bs : List Byte) : State :=
  s.setMem (s.mem.storeRun s.cfg.font base bs)

/-- Present the random byte of the coming step (40_step_cycle.md R120). -/
def State.setRnd (s : State) (b : Byte) : State := { s with rnd := b }

/-- `S[k]` for `k` in 1 to 16 (10_state.md R28). -/
def State.slot (s : State) (k : Nat) : Word := (s.S[k - 1]?).getD 0

/-- Push a return address below the full depth: `sp <- sp + 1`, then `S[sp] <- w`
(41_control_flow.md R142). -/
def State.push (s : State) (h : s.sp.val < 16) (w : Word) : State :=
  { s with sp := ⟨s.sp.val + 1, by omega⟩, S := s.S.set s.sp.val w }

/-- Pop the top return address: `sp <- sp − 1`; the slot keeps its value (41_control_flow.md
R141). -/
def State.pop (s : State) : State := { s with sp := ⟨s.sp.val - 1, by omega⟩ }

/-- `raise E` (00_scope.md R12), THE ONE WAY to take an error: the outcome carries no state, since
every write of the transaction is discarded and the state stays what it was before it
(60_exceptions.md R268). The core saves nothing and jumps nowhere, and there is no return from an
error (R268, R270; log 7). -/
def raise (e : Fault) : Result := .fault e

/-- An operation on the `k` bytes at `I`: the bounds check of the whole run comes before any effect
(20_memory.md R71). -/
def State.withRun (s : State) (k : Nat) (next : State) : Result :=
  match outOfRange s.I.toNat k with
  | some a => raise (.memOOB a)
  | none => .next next

/-- Load `V[0]` to `V[k − 1]` from the bytes at `base`, in ascending order (43_index_memory.md
R194). -/
def State.loadRegs (s : State) (base : Nat) : Nat → State
  | 0 => s
  | k + 1 => (State.loadRegs s base k).setV (Fin.ofNat 16 k) (s.byte (base + k))

/-- `V[0]` to `V[k − 1]`, in ascending order (43_index_memory.md R193). -/
def State.firstRegs (s : State) (k : Nat) : List Byte := s.V.toList.take k

/-- The random byte of this step has been used: the host presents some byte, free again, with the
next one (42_alu.md R170; log 1). -/
def State.nextRandom (s : State) : State :=
  { s with rnd := Config.randomByte s.draws, draws := s.draws + 1 }

/-- The core is in `AwaitingKey`: a step does nothing (40_step_cycle.md R121). -/
def State.suspended (s : State) : Bool := s.wait.active

/-- `MemRead(pc, 2)`: the big-endian word at `pc` (40_step_cycle.md R122, 20_memory.md R69). -/
def State.fetchWord (s : State) : Word :=
  wordOfBytes (s.byte s.pc.toNat) (s.byte (s.pc.toNat + 1))

/-- Fetch and decode, with their errors in the order of 60_exceptions.md R267: fetch bounds first,
then the unknown word (40_step_cycle.md R122, R124). -/
def State.fetchInstr (s : State) : Except Fault Instr :=
  match outOfRange s.pc.toNat Config.instrBytes with
  | some a => .error (.memOOB a)
  | none =>
    match decodeWord s.fetchWord with
    | none => .error (.unknownOpcode s.fetchWord)
    | some i => .ok i

/-- `pc <- pc + 2`, before the operation executes (40_step_cycle.md R123). -/
def State.advance (s : State) : State := s.setPc (s.pc + 2)

/-- `pc <- pc + 2` once more: the effect of a taken skip (41_control_flow.md R144). -/
def State.skip (s : State) : State := s.setPc (s.pc + 2)

/-- Place a word where the next step fetches, and make the next step fetch it: the core is
`Running`, and a `pc` from which nothing can be fetched is put at the entry point (log 6). -/
def State.placeWord (s : State) (w : Word) : State :=
  let pc : Word := if s.pc.toNat ≤ 4094 then s.pc else 0x200
  ((s.setPc pc).setWait { s.wait with active := false }).storeBytes pc.toNat [highByte w, lowByte w]

end Sys2Proof.Machine
end

