-- ==== Sys2Proof/Machine/Operands.lean ====
section
/-! DEFINITION. How operands become values (30_encoding.md R93, 43_index_memory.md R190): immediates
as they stand, addresses and registers zero-extended, data addresses `I + k` exact. -/

namespace Sys2Proof.Machine

/-- `zext_16(addr)`: a 12-bit immediate address in a 16-bit register (R93). -/
def addrOperand (addr : BitVec 12) : Word := addr.setWidth 16

/-- `zext_16(V[x])` (43_index_memory.md R192, R196). -/
def byteToWord (b : Byte) : Word := b.setWidth 16

/-- `zext_8(key)`: a delivered key in an 8-bit register (46_host_interface.md R244). -/
def keyToByte (key : BitVec 4) : Byte := key.setWidth 8

/-- The effective address of data: `I + k`, an exact natural number, never reduced
(20_memory.md R71). -/
def State.dataAddr (s : State) (k : Nat) : Nat := s.I.toNat + k

/-- The number of registers a block transfer moves: `x + 1`, register `x` included
(43_index_memory.md R193). -/
def blockLength (x : RegIdx) : Nat := x.val + 1

/-- The three decimal digits of a byte: hundreds, tens, ones (43_index_memory.md R195). -/
def decimalDigits (v : Byte) : List Byte :=
  [BitVec.ofNat 8 (v.toNat / 100), BitVec.ofNat 8 (v.toNat / 10 % 10), BitVec.ofNat 8 (v.toNat % 10)]

/-- `5 × zext_16(V[x])`: the address of the glyph of a digit, the formula applied to every value
(43_index_memory.md R196; log 18). -/
def glyphAddr (v : Byte) : Word := 5 * byteToWord v

end Sys2Proof.Machine
end

