-- ==== Sys2Proof/Machine/Flags.lean ====
section
/-! DEFINITION. The results and flags of the flag-writing operations (10_state.md R23, 42_alu.md
R165 to R169), and the order of the two writes (R172). -/

namespace Sys2Proof.Machine

/-- A condition as the value of a flag: 1 when true, 0 when false (00_scope.md R9). -/
def flagByte (b : Bool) : Byte := if b then 1 else 0

/-- A result for `V[x]` and the flag for `VF`. -/
structure Flagged where
  result : Byte
  flag : Byte
  deriving DecidableEq, Repr

/-- `ADD Vx,Vy`: the wrapped sum, and carry (42_alu.md R165). -/
def addFlagged (a b : Byte) : Flagged := ⟨a + b, flagByte (decide (255 < a.toNat + b.toNat))⟩

/-- `a − b` modulo 256, and not-borrow: 1 iff `a ≥ b` (42_alu.md R166; R167 with the operands
exchanged). -/
def subFlagged (a b : Byte) : Flagged := ⟨a - b, flagByte (decide (b.toNat ≤ a.toNat))⟩

/-- `SHR Vx`: the logical shift by one, and the bit shifted out (42_alu.md R168). -/
def shrFlagged (a : Byte) : Flagged := ⟨a >>> 1, flagByte (a.getLsbD 0)⟩

/-- `SHL Vx`: the shift by one, and the bit shifted out (42_alu.md R169). -/
def shlFlagged (a : Byte) : Flagged := ⟨a <<< 1, flagByte (a.getLsbD 7)⟩

/-- The two writes of a flag-writing operation, under either value of `VF_ORDER` (42_alu.md
R172). -/
def State.writeFlagged (order : Config.VFOrder) (s : State) (x : RegIdx) (r : Flagged) : State :=
  match order with
  | .flagLast => (s.setV x r.result).setV VF r.flag
  | .resultLast => (s.setV VF r.flag).setV x r.result

/-- The two writes in the order of the machine's parameter `VF_ORDER` (R7, R172; its default log
2). -/
def State.putFlagged (s : State) (x : RegIdx) (r : Flagged) : State :=
  s.writeFlagged s.cfg.vfOrder x r

end Sys2Proof.Machine
end

