-- ==== Sys2Proof/Machine/Alu.lean ====
section
/-! DEFINITION. Register and arithmetic operations (42_alu.md R160 to R173). Operands are read before
any write (00_scope.md R13; log 24). -/

namespace Sys2Proof.Machine

/-- `LD Vx,kk` (R161). -/
def execLdImm (x : RegIdx) (kk : Byte) (s : State) : Result := .next (s.setV x kk)

/-- `LD Vx,Vy` (R162). -/
def execLdReg (x y : RegIdx) (s : State) : Result := .next (s.setV x (s.getV y))

/-- `ADD Vx,kk` (R163): no flag. -/
def execAddImm (x : RegIdx) (kk : Byte) (s : State) : Result := .next (s.setV x (s.getV x + kk))

/-- `XOR Vx,Vy` (R164): no flag. -/
def execXor (x y : RegIdx) (s : State) : Result := .next (s.setV x (s.getV x ^^^ s.getV y))

/-- `ADD Vx,Vy` (R165). -/
def execAddReg (x y : RegIdx) (s : State) : Result :=
  .next (s.putFlagged x (addFlagged (s.getV x) (s.getV y)))

/-- `SUB Vx,Vy` (R166). -/
def execSub (x y : RegIdx) (s : State) : Result :=
  .next (s.putFlagged x (subFlagged (s.getV x) (s.getV y)))

/-- `SUBN Vx,Vy` (R167). -/
def execSubn (x y : RegIdx) (s : State) : Result :=
  .next (s.putFlagged x (subFlagged (s.getV y) (s.getV x)))

/-- `SHR Vx` (R168). -/
def execShr (x : RegIdx) (s : State) : Result :=
  .next (s.putFlagged x (shrFlagged (s.getV x)))

/-- `SHL Vx` (R169). -/
def execShl (x : RegIdx) (s : State) : Result :=
  .next (s.putFlagged x (shlFlagged (s.getV x)))

/-- `RND Vx,kk` (R170): the random byte presented with this step, masked. -/
def execRnd (x : RegIdx) (kk : Byte) (s : State) : Result :=
  .next (s.nextRandom.setV x (s.rnd &&& kk))

end Sys2Proof.Machine
end

