-- ==== Sys2Proof/Machine/Control.lean ====
section
/-! DEFINITION. Control flow: `RET`, `CALL`, `JP`, `SE`, `SNE` (41_control_flow.md R140 to R146).
When an operation starts, `pc` is already `npc` (40_step_cycle.md R123). -/

namespace Sys2Proof.Machine

/-- `RET` (R141). -/
def execRet (s : State) : Result :=
  if s.sp.val = 0 then raise .stackUnderflow else .next (s.pop.setPc (s.slot s.sp.val))

/-- `CALL addr` (R142): the address pushed is `npc`, the instruction after the `CALL`. -/
def execCall (addr : BitVec 12) (s : State) : Result :=
  if h : s.sp.val < 16 then .next ((s.push h s.pc).setPc (addrOperand addr))
  else raise .stackOverflow

/-- `JP addr` (R143). -/
def execJp (addr : BitVec 12) (s : State) : Result := .next (s.setPc (addrOperand addr))

/-- `SE Vx,kk` (R144). -/
def execSe (x : RegIdx) (kk : Byte) (s : State) : Result :=
  .next (if s.getV x = kk then s.skip else s)

/-- `SNE Vx,kk` (R145). -/
def execSne (x : RegIdx) (kk : Byte) (s : State) : Result :=
  .next (if s.getV x ≠ kk then s.skip else s)

end Sys2Proof.Machine
end

