-- ==== Sys2Proof/Machine/Blit.lean ====
section
/-! DEFINITION. The framebuffer's cells (10_state.md R32) and the XOR-blit engine (44_display.md
R212 to R216), bit by bit as the pseudocode of R213 goes. -/

namespace Sys2Proof.Machine

/-- Row `y` of the framebuffer; there are rows 0 to 31. -/
def Framebuffer.row (fb : Framebuffer) (y : Nat) : BitVec 64 := (fb[y]?).getD 0

/-- `FB[x, y]` (10_state.md R32). -/
def Framebuffer.cell (fb : Framebuffer) (x y : Nat) : Bool := (Framebuffer.row fb y).getLsbD x

/-- `FB[x, y] <- FB[x, y] ^ 1` (44_display.md R213). -/
def Framebuffer.toggle (fb : Framebuffer) (x y : Nat) : Framebuffer :=
  fb.setIfInBounds y (Framebuffer.row fb y ^^^ (1#64 <<< x))

/-- The blank framebuffer (44_display.md R211). -/
def Framebuffer.blank : Framebuffer := Vector.replicate 32 0

/-- What a draw works on: the framebuffer, and whether a lit cell has been turned off so far. -/
structure Blit where
  fb : Framebuffer
  collision : Bool
  deriving DecidableEq, Repr

/-- The column of sprite bit `k`: reduced modulo 64 after the exact sum (44_display.md R214). -/
def blitColumn (x0 k : Nat) : Nat := (x0 + k) % 64

/-- One sprite bit, `k` counted from the most significant (44_display.md R212, R213). -/
def Blit.bit (x0 yy : Nat) (b : Byte) (d : Blit) (k : Nat) : Blit :=
  if b.getLsbD (7 - k) then
    { fb := Framebuffer.toggle d.fb (blitColumn x0 k) yy
      collision := d.collision || Framebuffer.cell d.fb (blitColumn x0 k) yy }
  else d

/-- One sprite row at screen row `yy`; below the last row it is clipped (44_display.md R215; log
16). -/
def Blit.row (x0 yy : Nat) (b : Byte) (d : Blit) : Blit :=
  if yy ≤ 31 then [0, 1, 2, 3, 4, 5, 6, 7].foldl (Blit.bit x0 yy b) d else d

/-- The rows of a sprite, the first at screen row `yy`, each next one row lower (44_display.md
R213). -/
def Blit.rows (x0 yy : Nat) : List Byte → Blit → Blit
  | [], d => d
  | b :: bs, d => Blit.rows x0 (yy + 1) bs (Blit.row x0 yy b d)

end Sys2Proof.Machine
end

