-- ==== Sys2Proof/Machine/Display.lean ====
section
/-! DEFINITION. Display operations (44_display.md R210 to R217). -/

namespace Sys2Proof.Machine

/-- `CLS` (R211). -/
def execCls (s : State) : Result := .next ((s.setFB Framebuffer.blank).setRedraw true)

/-- The draw of `DRW Vx,Vy,n`: the sprite at `I` blitted at the origin `(V[x], V[y])` (R213). -/
def State.draw (s : State) (x y : RegIdx) (n : Nat) : Blit :=
  Blit.rows (s.getV x).toNat (s.getV y).toNat (s.bytesAt (s.dataAddr 0) n) ⟨s.FB, false⟩

/-- `DRW Vx,Vy,n` (R213): `VF` and `redraw` are always written, also when nothing is drawn (log
16). -/
def execDrw (x y : RegIdx) (n : Fin 16) (s : State) : Result :=
  s.withRun n.val
    (((s.setFB (s.draw x y n.val).fb).setV VF (flagByte (s.draw x y n.val).collision)).setRedraw
      true)

end Sys2Proof.Machine
end

