-- ==== Sys2Proof/Machine/IndexMemory.lean ====
section
/-! DEFINITION. Index register and memory operations (43_index_memory.md R190 to R197). No access
changes `I`. -/

namespace Sys2Proof.Machine

/-- `LD I,addr` (R191). -/
def execLdI (addr : BitVec 12) (s : State) : Result := .next (s.setI (addrOperand addr))

/-- `ADD I,Vx` (R192): wraps modulo 65536, no flag (log 17). -/
def execAddI (x : RegIdx) (s : State) : Result := .next (s.setI (s.I + byteToWord (s.getV x)))

/-- `LD [I],Vx` (R193): stores `V[0]` to `V[x]`, register `x` included. -/
def execStBlock (x : RegIdx) (s : State) : Result :=
  s.withRun (blockLength x)
    (s.storeBytes (s.dataAddr 0) (s.firstRegs (blockLength x)))

/-- `LD Vx,[I]` (R194): loads `V[0]` to `V[x]`, register `x` included. -/
def execLdBlock (x : RegIdx) (s : State) : Result :=
  s.withRun (blockLength x) (s.loadRegs (s.dataAddr 0) (blockLength x))

/-- `LD B,Vx` (R195): always three bytes. -/
def execLdB (x : RegIdx) (s : State) : Result :=
  s.withRun 3 (s.storeBytes (s.dataAddr 0) (decimalDigits (s.getV x)))

/-- `LD F,Vx` (R196). -/
def execLdF (x : RegIdx) (s : State) : Result := .next (s.setI (glyphAddr (s.getV x)))

end Sys2Proof.Machine
end

