-- ==== Sys2Proof/Machine/KeyTimer.lean ====
section
/-! DEFINITION. Key-wait and timer operations (45_key_timer.md R230 to R232). -/

namespace Sys2Proof.Machine

/-- `LD Vx,K` (R231): the register is written later, by the key delivery. -/
def execLdKey (x : RegIdx) (s : State) : Result := .next (s.setWait ⟨true, x⟩)

/-- `LD DT,Vx` (R232). -/
def execLdDT (x : RegIdx) (s : State) : Result := .next (s.setDT (s.getV x))

end Sys2Proof.Machine
end

