-- ==== Sys2Proof/Machine/Step.lean ====
section
/-! DEFINITION. The step (40_step_cycle.md R120): suspension check, fetch, advance, decode, execute.
Its input, the random byte, stands in the state (log 1). -/

namespace Sys2Proof.Machine

/-- `Step(rnd)` (R120). -/
def step (s : State) : Host.Outcome State Fault Refusal :=
  if s.suspended then .next s
  else
    match s.fetchInstr with
    | .error e => raise e
    | .ok i => exec i s.advance

/-- The state with an instruction word of the opcode table placed where the next step fetches it
(log 6). -/
def State.withFetchWord (s : State) (nbits w : Nat) : State := s.placeWord (tableWord nbits w)

end Sys2Proof.Machine
end

