-- ==== Sys2Proof/Machine/Transactions.lean ====
section
/-! DEFINITION. The host interface (46_host_interface.md R240 to R254): the ten transactions, each
one atomic transition of the state with a reply. `step` of Machine/Step.lean is the step transaction
with the random byte already presented. -/

namespace Sys2Proof.Machine

/-- `load(bytes)` (R241, R242): a complete reset with the program placed at 0x200, or
`ROMTooLarge` with nothing changed. What the host will present as random bytes is no state of the
core, so it stays (log 1); so do the parameters the machine is built with, whose `FONT` is seeded
again (00_scope.md R7). -/
def load (bytes : List Byte) (s : State) : Result :=
  if bytes.length ≤ Config.progMax then
    .next
      { State.resetWith s.cfg with
        mem := Memory.ofProgram s.cfg.font Config.progBase bytes
        rnd := s.rnd
        draws := s.draws }
  else raise (.romTooLarge bytes.length)

/-- `step(rnd)` (R243): the host presents the byte, the core steps. -/
def stepWith (rnd : Byte) (s : State) : Result := step (s.setRnd rnd)

/-- `deliver_key(key)` (R244): a key that no wait asks for is dropped. -/
def deliverKey (key : BitVec 4) (s : State) : State :=
  if s.wait.active then
    (s.setV s.wait.reg (keyToByte key)).setWait { s.wait with active := false }
  else s

/-- `framebuffer()` (R245): bit `x + 64 × y` of the 2048 is `FB[x, y]`. -/
def framebuffer (s : State) : Framebuffer := s.FB

/-- `redraw_pending()` (R246). -/
def redrawPending (s : State) : Bool := s.redraw

/-- `clear_redraw()` (R247). -/
def clearRedraw (s : State) : State := s.setRedraw false

/-- `delay_timer()` (R248). -/
def delayTimer (s : State) : Byte := s.DT

/-- `sound_timer()` (R248). -/
def soundTimer (s : State) : Byte := s.ST

/-- `set_delay_timer(v)` (R249). -/
def setDelayTimer (v : Byte) (s : State) : State := s.setDT v

/-- `set_sound_timer(v)` (R249). -/
def setSoundTimer (v : Byte) (s : State) : State := s.setST v

/-- One transaction of the host (R240). -/
inductive Transaction where
  | load (bytes : List Byte)
  | step (rnd : Byte)
  | deliverKey (key : BitVec 4)
  | framebuffer
  | redrawPending
  | clearRedraw
  | delayTimer
  | soundTimer
  | setDelayTimer (v : Byte)
  | setSoundTimer (v : Byte)
  deriving DecidableEq, Repr

/-- What a transaction returns to the host (R240). -/
inductive Reply where
  /-- `Ok` of a load or a step. -/
  | ok
  /-- The error of a load or a step (60_exceptions.md R260). -/
  | error (e : Fault)
  /-- No meaning: cannot happen, all 25 operations have one. -/
  | refused (r : Refusal)
  /-- A transaction that returns nothing. -/
  | done
  /-- The grid of `framebuffer()`. -/
  | pixels (fb : Framebuffer)
  /-- The bit of `redraw_pending()`. -/
  | flag (b : Bool)
  /-- A timer's value. -/
  | byte (b : Byte)
  deriving DecidableEq, Repr

/-- What a transaction returns and the state it leaves. -/
structure HostResult where
  reply : Reply
  state : State
  deriving DecidableEq, Repr

/-- A load or a step as the host sees it: an error leaves the whole state as it was
(60_exceptions.md R268). -/
def hostResult (s : State) : Result → HostResult
  | .next t => ⟨.ok, t⟩
  | .fault e => ⟨.error e, s⟩
  | .refused r => ⟨.refused r, s⟩

/-- One transaction (R240), total and deterministic; transactions never overlap (R252). -/
def transact (tx : Transaction) (s : State) : HostResult :=
  match tx with
  | .load bytes => hostResult s (load bytes s)
  | .step rnd => hostResult s (stepWith rnd s)
  | .deliverKey key => ⟨.done, deliverKey key s⟩
  | .framebuffer => ⟨.pixels (framebuffer s), s⟩
  | .redrawPending => ⟨.flag (redrawPending s), s⟩
  | .clearRedraw => ⟨.done, clearRedraw s⟩
  | .delayTimer => ⟨.byte (delayTimer s), s⟩
  | .soundTimer => ⟨.byte (soundTimer s), s⟩
  | .setDelayTimer v => ⟨.done, setDelayTimer v s⟩
  | .setSoundTimer v => ⟨.done, setSoundTimer v s⟩

/-- A sequence of transactions: the state they leave. -/
def transactAll : List Transaction → State → State
  | [], s => s
  | tx :: rest, s => transactAll rest (transact tx s).state

/-- A timer after one tick: decremented, staying at 0 (46_host_interface.md R250; PRESUMED by the
spec, log 19). -/
def tickByte (b : Byte) : Byte := if b = 0 then b else b - 1

/-- `Tick()` (R250), a procedure of the host over the timer transactions, no transaction of the
core. -/
def tick (s : State) : State :=
  setSoundTimer (tickByte (soundTimer s)) (setDelayTimer (tickByte (delayTimer s)) s)

end Sys2Proof.Machine
end

