-- ==== Sys2Proof/Safety.lean ====
section
/-! DEFINITION. The terms claims are stated in: what a run may change (frames), what an operation
reads, writes and raises as the tables of 10_state.md and 60_exceptions.md list it, the invariant of
10_state.md R38, and the forms whose result rests on a decision of the spec
(93_implementation_defined.md part 1). -/

namespace Sys2Proof.Machine

/-- The parts of the state beside the general registers. -/
inductive Part where
  | I | pc | sp | S | DT | ST | wait | FB | redraw | mem | random
  deriving DecidableEq, Repr

/-- Everything of `t` is as in `s`, but for the registers of `regs` and the parts of `parts`. The
memory is compared byte by byte, as reading it shows it. The parameters are always the same. -/
def Frame (regs : List RegIdx) (parts : List Part) (s t : State) : Prop :=
  (∀ r, r ∉ regs → t.getV r = s.getV r) ∧
  (Part.I ∉ parts → t.I = s.I) ∧
  (Part.pc ∉ parts → t.pc = s.pc) ∧
  (Part.sp ∉ parts → t.sp = s.sp) ∧
  (Part.S ∉ parts → t.S = s.S) ∧
  (Part.DT ∉ parts → t.DT = s.DT) ∧
  (Part.ST ∉ parts → t.ST = s.ST) ∧
  (Part.wait ∉ parts → t.wait = s.wait) ∧
  (Part.FB ∉ parts → t.FB = s.FB) ∧
  (Part.redraw ∉ parts → t.redraw = s.redraw) ∧
  (Part.mem ∉ parts → ∀ a, t.byte a = s.byte a) ∧
  (Part.random ∉ parts → t.rnd = s.rnd ∧ t.draws = s.draws) ∧
  t.cfg = s.cfg

/-- The same state of a machine built with the order `o` for the parameter `VF_ORDER`. -/
def State.withOrder (s : State) (o : Config.VFOrder) : State :=
  { s with cfg := { s.cfg with vfOrder := o } }

/-- The registers numbered 0 to `x`. -/
def regsUpTo (x : RegIdx) : List RegIdx := (List.finRange 16).filter (· ≤ x)

end Sys2Proof.Machine

namespace Sys2Proof

open Machine

/-- The registers an operation reads: the table of 10_state.md R22. -/
def Instr.regsRead : Instr → List RegIdx
  | .se x _ | .sne x _ | .addImm x _ | .shr x | .shl x => [x]
  | .addI x | .ldF x | .ldB x | .ldDT x => [x]
  | .ldReg _ y => [y]
  | .addReg x y | .sub x y | .subn x y | .xor x y | .drw x y _ => [x, y]
  | .stBlock x => regsUpTo x
  | .ldImm _ _ | .rnd _ _ | .ldBlock _ | .ldKey _ | .cls | .ret | .jp _ | .call _ | .ldI _ => []

/-- The registers an operation may write: the table of 10_state.md R22. -/
def Instr.regsWritten : Instr → List RegIdx
  | .ldImm x _ | .ldReg x _ | .addImm x _ | .xor x _ | .rnd x _ => [x]
  | .addReg x _ | .sub x _ | .subn x _ | .shr x | .shl x => [x, VF]
  | .drw _ _ _ => [VF]
  | .ldBlock x => regsUpTo x
  | .se _ _ | .sne _ _ | .addI _ | .ldF _ | .ldB _ | .ldDT _ | .stBlock _ => []
  | .ldKey _ | .cls | .ret | .jp _ | .call _ | .ldI _ => []

/-- The parts beside the registers an operation may write: 10_state.md R24 to R34, 20_memory.md
R61. -/
def Instr.partsWritten : Instr → List Part
  | .cls | .drw _ _ _ => [.FB, .redraw]
  | .ret => [.pc, .sp]
  | .call _ => [.pc, .sp, .S]
  | .jp _ | .se _ _ | .sne _ _ => [.pc]
  | .ldI _ | .addI _ | .ldF _ => [.I]
  | .stBlock _ | .ldB _ => [.mem]
  | .ldKey _ => [.wait]
  | .ldDT _ => [.DT]
  | .rnd _ _ => [.random]
  | .ldImm _ _ | .ldReg _ _ | .addImm _ _ | .xor _ _ | .addReg _ _ | .sub _ _ => []
  | .subn _ _ | .shr _ | .shl _ | .ldBlock _ => []

/-- How many bytes at `I` an operation accesses (20_memory.md R61, R71). -/
def Instr.runLength : Instr → Nat
  | .stBlock x | .ldBlock x => x.val + 1
  | .ldB _ => 3
  | .drw _ _ n => n.val
  | _ => 0

end Sys2Proof

namespace Sys2Proof.Machine

/-- `pc` after an operation that starts with `pc = npc`: the table of 10_state.md R26. -/
def pcAfter (i : Instr) (s : State) : Word :=
  match i with
  | .jp addr | .call addr => BitVec.ofNat 16 addr.toNat
  | .ret => s.slot s.sp.val
  | .se x kk => if s.getV x = kk then s.pc + 2 else s.pc
  | .sne x kk => if s.getV x = kk then s.pc else s.pc + 2
  | _ => s.pc

/-- The error an operation raises, if it raises one: the table of 60_exceptions.md R260, R267. -/
def opError (i : Instr) (s : State) : Option Fault :=
  match i with
  | .call _ => if s.sp.val = 16 then some .stackOverflow else none
  | .ret => if s.sp.val = 0 then some .stackUnderflow else none
  | i =>
    if 1 ≤ i.runLength ∧ 4095 < s.I.toNat + i.runLength - 1 then
      some (.memOOB (max s.I.toNat 4096))
    else none

/-- The cell `(px, py)` lies under a set bit of the `n`-row sprite at `I` drawn at the origin
`(x0, y0)`: in closed form, with no loop (44_display.md R212, R214, R215). -/
def spriteBit (s : State) (x0 y0 n px py : Nat) : Bool :=
  decide (y0 ≤ py) && decide (py < y0 + n) && decide ((px + 64 - x0 % 64) % 64 < 8) &&
    (s.byte (s.I.toNat + (py - y0))).getLsbD (7 - (px + 64 - x0 % 64) % 64)

/-- The operands of an instruction are the fields of the word, by arithmetic on its value
(30_encoding.md R91). -/
def OperandsAreFields (w : Nat) : Instr → Prop
  | .cls | .ret => True
  | .jp a | .call a | .ldI a => a.toNat = w % 4096
  | .se x kk | .sne x kk | .ldImm x kk | .addImm x kk | .rnd x kk =>
    x.val = w / 256 % 16 ∧ kk.toNat = w % 256
  | .ldReg x y | .xor x y | .addReg x y | .sub x y | .subn x y =>
    x.val = w / 256 % 16 ∧ y.val = w / 16 % 16
  | .drw x y n => x.val = w / 256 % 16 ∧ y.val = w / 16 % 16 ∧ n.val = w % 16
  | .shr x | .shl x | .ldKey x | .ldDT x | .addI x | .ldF x | .ldB x | .stBlock x | .ldBlock x =>
    x.val = w / 256 % 16

/-- The invariant of 10_state.md R38, with the canonical form of the memory: `pc` is at most 4098,
every held return address at most 4096. That `sp` is at most 16 is in its type. -/
def Inv (s : State) : Prop :=
  s.pc.toNat ≤ 4098 ∧ (∀ k, 1 ≤ k → k ≤ s.sp.val → (s.slot k).toNat ≤ 4096) ∧
    s.mem.wf s.cfg.font = true

/-- The states that the host's transactions reach from reset, with whatever parameters the machine is
built with (10_state.md R38, 00_scope.md R7). -/
inductive Reachable : State → Prop where
  | reset (p : Config.Params) : Reachable (State.resetWith p)
  | transact (tx : Transaction) {s : State} : Reachable s → Reachable (transact tx s).state

/-- A run of `k` steps is safe if none of them raises an error (60_exceptions.md R270: the first
step error is the end of the run). -/
def SafeFor (k : Nat) (s : State) : Prop := ∃ t, Sys2Proof.core.run k s = .next t

/-- The instruction's result at this state rests on a decision of the spec where the source is
silent or unclear: 93_implementation_defined.md U4 (register 15 in a flag-writing operation), U5
(clipped rows), U6 (`LD F` above 15), U9 (`ADD I` past 0xFFFF). A cautious claim excludes these. -/
def restsOnDecision (i : Instr) (s : State) : Bool :=
  match i with
  | .addReg x y | .sub x y | .subn x y => x == VF || y == VF
  | .shr x | .shl x => x == VF
  | .drw x y n =>
    x == VF || y == VF || (decide (1 ≤ n.val) && decide (31 < (s.getV y).toNat + n.val - 1))
  | .ldF x => decide (15 < (s.getV x).toNat)
  | .addI x => decide (65535 < s.I.toNat + (s.getV x).toNat)
  | _ => false

end Sys2Proof.Machine
end

