-- ==== Sys2Proof/Certificates/Slice0/Obligations.lean ====
section
/-! DEFINITION. The statements for the provers, in the order of the spec's files. In the statements
about `exec` the state has `pc = npc` already, as 40_step_cycle.md R123 says; `Frame regs parts s t`
says that nothing but `regs` and `parts` differs. -/

open Sys2Proof Sys2Proof.Machine

/-! ### Encoding (30_encoding.md) -/

/-- R94: the three words the source prints, and the two families they fix. Which of the two nibbles
of `w[11:4]` is `x` the source does not say: see `DecodedOperandsAreTheFields`. -/
def Obligations.SourceWordsDecode : Prop :=
  decodeWord 0x00E0#16 = some .cls ∧
  decodeWord 0xA2F0#16 = some (.ldI 0x2F0) ∧
  decodeWord 0xD005#16 = some (.drw 0 0 5) ∧
  (∀ w : Word, w.toNat / 4096 = 0xA → ∃ a, decodeWord w = some (.ldI a) ∧ a.toNat = w.toNat % 4096) ∧
  (∀ w : Word, w.toNat / 4096 = 0xD →
    ∃ x y n, decodeWord w = some (.drw x y n) ∧ n.val = w.toNat % 16 ∧
      ((x.val = w.toNat / 256 % 16 ∧ y.val = w.toNat / 16 % 16) ∨
        (y.val = w.toNat / 256 % 16 ∧ x.val = w.toNat / 16 % 16)))

/-- One word of each family, bit by bit from the layouts of R92 and the selectors of R96 (the
selectors are the spec's own, log 9), and unknown words of R99 to R104. -/
def Obligations.FamilyWordsDecode : Prop :=
  decodeWord 0b0000000011101110#16 = some .ret ∧
  decodeWord 0b0001101010111100#16 = some (.jp 0xABC) ∧
  decodeWord 0b0011101001000010#16 = some (.se 10 0x42) ∧
  decodeWord 0b1000101010110101#16 = some (.sub 10 11) ∧
  decodeWord 0b1000101010110110#16 = some (.shr 10) ∧
  decodeWord 0b1101000100101111#16 = some (.drw 1 2 15) ∧
  decodeWord 0b1111011101010101#16 = some (.stBlock 7) ∧
  decodeWord 0b1111111101100101#16 = some (.ldBlock 15) ∧
  decodeWord 0b0000000111100000#16 = none ∧
  decodeWord 0b0101101010110000#16 = none ∧
  decodeWord 0b1000101010110001#16 = none ∧
  decodeWord 0b1111000100000111#16 = none

/-- Decoding the encoding of any instruction gives it back, as a word and as bytes in memory order
with whatever bytes follow. -/
def Obligations.DecodeOfEncodeIsIdentity : Prop :=
  ∀ (i : Instr) (rest : List Byte),
    decodeWord (encodeWord i) = some i ∧ decode (encode i ++ rest) = .ok (i, rest)

/-- Encoding what a word decodes to gives the word back, but for the ignored `y` field of `SHR` and
`SHL`, which comes back as 0 (R100; log 11). -/
def Obligations.EncodeOfDecodeIsCanonical : Prop :=
  ∀ (w : Word) (i : Instr), decodeWord w = some i →
    ((∃ x, i = .shr x ∨ i = .shl x) → encodeWord i = w &&& 0xFF0F#16) ∧
    ((∀ x, i ≠ .shr x ∧ i ≠ .shl x) → encodeWord i = w)

/-- R96: a word selects the operation of a row iff `w & mask = match`, and the rows are disjoint: of
the 25 rows exactly the row of the decoded operation selects the word, and none selects an unknown
one. -/
def Obligations.OpcodeMapAgreesWithDecoder : Prop :=
  ∀ w : Word, opcodeMap.filter (fun r => r.selects w) = ((decodeWord w).map Instr.row).toList

/-- R91: the operands of a decoded instruction are the fields of the word. -/
def Obligations.DecodedOperandsAreTheFields : Prop :=
  ∀ (w : Word) (i : Instr), decodeWord w = some i → OperandsAreFields w.toNat i

/-- R105: a written line stands for an instruction exactly if it is one of the 25 forms with
operands in range, and then it is the form that instruction is written in. -/
def Obligations.AssemblesExactlyTheForms : Prop :=
  ∀ (l : AsmLine) (i : Instr), assemble l = .ok i ↔ l = i.toAsm

/-! ### The step cycle (40_step_cycle.md, 60_exceptions.md) -/

/-- A step of a running core whose word at `pc` decodes runs exactly that instruction, with `pc`
advanced past its two bytes, the byte at the lower address being the high one (R69, R122, R123). -/
def Obligations.StepRunsTheDecodedInstr : Prop :=
  ∀ (s : State) (i : Instr), s.wait.active = false → s.pc.toNat + 1 ≤ 4095 →
    decodeWord (BitVec.ofNat 16 ((s.byte s.pc.toNat).toNat * 256 +
      (s.byte (s.pc.toNat + 1)).toNat)) = some i →
    step s = exec i { s with pc := s.pc + 2 }

/-- In `AwaitingKey` (R121) a step does nothing at all, whatever `pc`, memory and the random byte
hold; of all transactions only a step that runs `LD Vx,K` begins the wait, with its register, and
only a key delivery, which also writes the register, and a successful load, which resets everything,
end it (R31, R241, R244). -/
def Obligations.SuspensionIsTheKeyWait : Prop :=
  (∀ s : State, s.wait.active = true → step s = .next s) ∧
  (∀ (s : State) (tx : Transaction), s.wait.active = false →
    (transact tx s).state.wait.active = true →
    ∃ b x, tx = .step b ∧ s.fetchInstr = .ok (.ldKey x) ∧
      (transact tx s).state.wait.reg = x) ∧
  (∀ (s : State) (tx : Transaction), s.wait.active = true →
    (transact tx s).state.wait.active = false →
    (∃ key, tx = .deliverKey key ∧
      ((transact tx s).state.getV s.wait.reg).toNat = key.toNat) ∨
    (∃ bytes, tx = .load bytes ∧ bytes.length ≤ 3584))

/-- The fetch raises `MemOOB` exactly if `pc + 1` is above 4095, with the lowest address of the two
that is outside (R70; that the second byte counts, and the payload, are the spec's decision D6, log
12). -/
def Obligations.FetchOutOfRangeRaisesMemOOB : Prop :=
  ∀ s : State, s.wait.active = false →
    (s.pc.toNat = 4095 → step s = .fault (.memOOB 4096)) ∧
    (4096 ≤ s.pc.toNat → step s = .fault (.memOOB s.pc.toNat)) ∧
    (s.pc.toNat ≤ 4094 → ∀ a, s.fetchInstr ≠ .error (.memOOB a))

/-- A step whose fetched word is none of the 25 operations raises `UnknownOpcode` with the whole
word, and changes nothing (R264, R103; that the payload is the whole word is the spec's decision D28
and that the state stays is its D8, logs 10 and 7). -/
def Obligations.UnknownWordRaisesUnknownOpcode : Prop :=
  ∀ (s : State) (b : Byte) (w : Word), s.wait.active = false → s.pc.toNat + 1 ≤ 4095 →
    w.toNat = (s.byte s.pc.toNat).toNat * 256 + (s.byte (s.pc.toNat + 1)).toNat →
    (∀ r ∈ opcodeMap, w &&& r.mask ≠ r.pattern) →
    transact (.step b) s = ⟨.error (.unknownOpcode w), s⟩

/-- R128: what a step never does: touch `ST`, clear `redraw`, change `DT`, the latch or the
framebuffer but by their own operations, or block. -/
def Obligations.StepNeverTouchesForeignParts : Prop :=
  (∀ (s t : State), step s = .next t →
    t.ST = s.ST ∧
    (s.redraw = true → t.redraw = true) ∧
    (t.DT ≠ s.DT → ∃ x, s.fetchInstr = .ok (.ldDT x)) ∧
    (t.wait ≠ s.wait → ∃ x, s.fetchInstr = .ok (.ldKey x)) ∧
    (t.FB ≠ s.FB → s.fetchInstr = .ok .cls ∨ ∃ x y n, s.fetchInstr = .ok (.drw x y n))) ∧
  (∀ s : State, (∃ t, step s = .next t) ∨ ∃ e, step s = .fault e)

/-- Every operation raises exactly the error of the table of R260, on exactly the states it names,
and completes on every other state (the data part of the table is the spec's decision D7, log
13). -/
def Obligations.OperationsRaiseExactlyTheirErrors : Prop :=
  ∀ (i : Instr) (s : State),
    (∀ e, exec i s = .fault e ↔ opError i s = some e) ∧
    (opError i s = none → ∃ t, exec i s = .next t)

/-- A transaction that returns an error leaves the whole state bit for bit as it was (R268, the
spec's decision D8, log 7). -/
def Obligations.ErrorsLeaveTheStateUnchanged : Prop :=
  ∀ (tx : Transaction) (s : State) (e : Fault),
    (transact tx s).reply = .error e → (transact tx s).state = s

/-- After a step error every later step raises the same error, whatever the host does in between
short of a successful load (R269, the spec's decision D9). -/
def Obligations.ErrorsRecurUntilALoad : Prop :=
  ∀ (s : State) (b b' : Byte) (e : Fault) (txs : List Transaction),
    (transact (.step b) s).reply = .error e →
    (∀ bytes, Transaction.load bytes ∈ txs → 3584 < bytes.length) →
    (transact (.step b') (transactAll txs s)).reply = .error e

/-- Only `RND` depends on the random byte: any other step gives the same result whatever byte is
presented, and leaves the presented byte alone (R127). -/
def Obligations.OnlyRndDependsOnTheRandomByte : Prop :=
  ∀ (s : State) (b : Byte), (∀ x kk, s.fetchInstr ≠ .ok (.rnd x kk)) →
    step (s.setRnd b) =
      match step s with
      | .next t => .next (t.setRnd b)
      | .fault e => .fault e
      | .refused r => .refused r

/-! ### State (10_state.md) -/

/-- The invariant of R38 is kept by every step, from every state that has it. -/
def Obligations.StepKeepsTheInvariant : Prop :=
  ∀ s t : State, Inv s → step s = .next t → Inv t

/-- The invariant holds after reset whatever the parameters, with `pc` at 0x200 and the machine's
glyph table at 0 to 79 (R64, R37, R38); the reset state is that of the default parameters (R7, R66;
the defaults are the spec's, logs 2 and 3). -/
def Obligations.ResetHasTheInvariant : Prop :=
  (∀ p : Config.Params, Inv (State.resetWith p) ∧ (State.resetWith p).pc = 0x200 ∧
    ∀ a, a < 80 → some ((State.resetWith p).byte a) = p.font[a]?) ∧
  State.reset = State.resetWith ⟨font, .flagLast⟩

/-- Every transaction keeps the invariant, so every state the host can reach has it; and `VF` takes
every byte value in some reachable state (R38). -/
def Obligations.ReachableStatesHaveTheInvariant : Prop :=
  (∀ (tx : Transaction) (s : State), Inv s → Inv (transact tx s).state) ∧
  (∀ s : State, Reachable s →
    s.sp.val ≤ 16 ∧ s.pc.toNat ≤ 4098 ∧
    (∀ k, 1 ≤ k → k ≤ s.sp.val → (s.slot k).toNat ≤ 4096) ∧ s.mem.wf s.cfg.font = true) ∧
  (∀ b : Byte, ∃ s : State, Reachable s ∧ s.getV VF = b)

/-- Canonical memories that read alike at every address of the address space are the same list,
whatever the glyph table. -/
def Obligations.CanonicalMemoryIsExtensional : Prop :=
  ∀ (f : Config.Font) (m m' : Memory), m.wf f = true → m'.wf f = true →
    (∀ a, a < 4096 → m.read f a = m'.read f a) → m = m'

/-- No operation's effect depends on a register outside the "reads" column of the table of R22: with
other contents there, it raises the same error, or writes the same values, changes the same other
parts and keeps the other contents. -/
def Obligations.OnlyListedRegistersAreRead : Prop :=
  ∀ (i : Instr) (s : State) (V' : Vector Byte 16),
    (∀ r ∈ i.regsRead, ({ s with V := V' } : State).getV r = s.getV r) →
    match exec i s with
    | .next t => ∃ t', exec i { s with V := V' } = .next t' ∧
        (∀ r, t'.getV r =
          if r ∈ i.regsWritten then t.getV r else ({ s with V := V' } : State).getV r) ∧
        t' = { t with V := t'.V }
    | .fault e => exec i { s with V := V' } = .fault e
    | .refused r => exec i { s with V := V' } = .refused r

/-- No operation writes a register outside the "writes" column of the table of R22, nor a part of the
state that its rule does not name: `I` is written by `LD I`, `ADD I` and `LD F` only, the stack by
`CALL` and `RET` only, memory by `LD [I],Vx` and `LD B,Vx` only, and so on (R24 to R34, 20_memory.md
R61). -/
def Obligations.OnlyListedStateIsWritten : Prop :=
  ∀ (i : Instr) (s t : State), exec i s = .next t → Frame i.regsWritten i.partsWritten s t

/-- The table of R26: where every step leaves `pc`. A step that raises an error or is suspended
leaves it where it was. -/
def Obligations.PcAfterEveryStep : Prop :=
  ∀ (s : State) (b : Byte),
    (s.wait.active = true → (transact (.step b) s).state.pc = s.pc) ∧
    (∀ e, (transact (.step b) s).reply = .error e → (transact (.step b) s).state.pc = s.pc) ∧
    (∀ i, s.wait.active = false → s.fetchInstr = .ok i →
      (transact (.step b) s).reply = .ok →
      (transact (.step b) s).state.pc = pcAfter i { s with pc := s.pc + 2 })

/-- The slots above the stack pointer are unobservable: two states that differ only there step
alike, and differ only above the pointer afterwards (R28, R36). -/
def Obligations.DeadStackSlotsAreUnobservable : Prop :=
  ∀ (s : State) (S' : Vector Word 16),
    (∀ k, 1 ≤ k → k ≤ s.sp.val → ({ s with S := S' } : State).slot k = s.slot k) →
    match step s with
    | .next t => ∃ t', step { s with S := S' } = .next t' ∧ t' = { t with S := t'.S } ∧
        ∀ k, 1 ≤ k → k ≤ t.sp.val → t'.slot k = t.slot k
    | .fault e => step { s with S := S' } = .fault e
    | .refused r => step { s with S := S' } = .refused r

/-! ### Control flow (41_control_flow.md) -/

/-- R143. -/
def Obligations.JumpGoesToTheAddress : Prop :=
  ∀ (addr : BitVec 12) (s : State), ∃ t, exec (.jp addr) s = .next t ∧
    t.pc.toNat = addr.toNat ∧ Frame [] [.pc] s t

/-- R142: below the full depth a call pushes `npc` in the next slot and goes to the address; at depth
16 it raises `StackOverflow`. -/
def Obligations.CallPushesTheReturnAddress : Prop :=
  ∀ (addr : BitVec 12) (s : State),
    (s.sp.val < 16 → ∃ t, exec (.call addr) s = .next t ∧
      t.sp.val = s.sp.val + 1 ∧ t.slot (s.sp.val + 1) = s.pc ∧ t.pc.toNat = addr.toNat ∧
      (∀ k, 1 ≤ k → k ≠ s.sp.val + 1 → t.slot k = s.slot k) ∧ Frame [] [.pc, .sp, .S] s t) ∧
    (s.sp.val = 16 → exec (.call addr) s = .fault .stackOverflow)

/-- R141: a return goes to the top slot and drops it; with an empty stack it raises
`StackUnderflow`. -/
def Obligations.ReturnPopsTheTopSlot : Prop :=
  ∀ s : State,
    (1 ≤ s.sp.val → ∃ t, exec .ret s = .next t ∧
      t.pc = s.slot s.sp.val ∧ t.sp.val + 1 = s.sp.val ∧ Frame [] [.pc, .sp] s t) ∧
    (s.sp.val = 0 → exec .ret s = .fault .stackUnderflow)

/-- R144, R145: the two skips, and that they change nothing but `pc`. -/
def Obligations.SkipsCompareWithTheImmediate : Prop :=
  ∀ (x : RegIdx) (kk : Byte) (s : State),
    (∃ t, exec (.se x kk) s = .next t ∧
      t.pc = (if s.getV x = kk then s.pc + 2 else s.pc) ∧ Frame [] [.pc] s t) ∧
    (∃ t, exec (.sne x kk) s = .next t ∧
      t.pc = (if s.getV x ≠ kk then s.pc + 2 else s.pc) ∧ Frame [] [.pc] s t)

/-- A return that finds the stack as a call left it comes back to the instruction after the call,
with the stack pointer as it was (the source's property, 95_test_vectors.md A7). -/
def Obligations.ReturnUndoesCall : Prop :=
  ∀ (addr : BitVec 12) (s t u : State), exec (.call addr) s = .next t → u.sp = t.sp → u.S = t.S →
    ∃ v, exec .ret u = .next v ∧ v.pc = s.pc ∧ v.sp = s.sp ∧
      ∀ k, 1 ≤ k → k ≤ s.sp.val → v.slot k = s.slot k

/-- A running core at a jump to its own address is at a fixed point of the step (R304, R143). -/
def Obligations.SelfJumpIsAFixedPoint : Prop :=
  ∀ s : State, s.wait.active = false → s.pc.toNat ≤ 4094 →
    (s.byte s.pc.toNat).toNat * 256 + (s.byte (s.pc.toNat + 1)).toNat =
      0x1000 + s.pc.toNat →
    step s = .next s

/-! ### Registers and arithmetic (42_alu.md) -/

/-- R161, R162. -/
def Obligations.MovesCopyTheirSource : Prop :=
  ∀ (x y : RegIdx) (kk : Byte) (s : State),
    (∃ t, exec (.ldImm x kk) s = .next t ∧ t.getV x = kk ∧ Frame [x] [] s t) ∧
    (∃ t, exec (.ldReg x y) s = .next t ∧ t.getV x = s.getV y ∧ Frame [x] [] s t)

/-- R163, R164: no flag is written; when `x` is 15 the result goes to `VF` as to any register. -/
def Obligations.FlaglessArithmetic : Prop :=
  ∀ (x y : RegIdx) (kk : Byte) (s : State),
    (∃ t, exec (.addImm x kk) s = .next t ∧
      (t.getV x).toNat = ((s.getV x).toNat + kk.toNat) % 256 ∧ Frame [x] [] s t) ∧
    (∃ t, exec (.xor x y) s = .next t ∧
      (∀ k, k < 8 → (t.getV x).getLsbD k = ((s.getV x).getLsbD k != (s.getV y).getLsbD k)) ∧
      Frame [x] [] s t)

/-- R165, for a destination other than `VF`, under either value of `VF_ORDER` (R165 leaves `x = 15` to
R172: see `FlagSurvivesInVF` and `ResultSurvivesInVF`). -/
def Obligations.AddSetsCarry : Prop :=
  ∀ (x y : RegIdx) (s : State), x ≠ VF → ∃ t, exec (.addReg x y) s = .next t ∧
    (t.getV x).toNat = ((s.getV x).toNat + (s.getV y).toNat) % 256 ∧
    t.getV VF = (if 255 < (s.getV x).toNat + (s.getV y).toNat then 1 else 0) ∧
    Frame [x, VF] [] s t

/-- R166, R167, for a destination other than `VF`, under either value of `VF_ORDER` (`x = 15` is R172:
see `FlagSurvivesInVF` and `ResultSurvivesInVF`). The difference is `(a − b) mod 256` of the values
before the operation. -/
def Obligations.SubtractionsSetNotBorrow : Prop :=
  ∀ (x y : RegIdx) (s : State), x ≠ VF →
    (∃ t, exec (.sub x y) s = .next t ∧
      ((t.getV x).toNat : Int) = ((s.getV x).toNat - (s.getV y).toNat : Int) % 256 ∧
      t.getV VF = (if (s.getV y).toNat ≤ (s.getV x).toNat then 1 else 0) ∧ Frame [x, VF] [] s t) ∧
    (∃ t, exec (.subn x y) s = .next t ∧
      ((t.getV x).toNat : Int) = ((s.getV y).toNat - (s.getV x).toNat : Int) % 256 ∧
      t.getV VF = (if (s.getV x).toNat ≤ (s.getV y).toNat then 1 else 0) ∧ Frame [x, VF] [] s t)

/-- R168, R169, for a destination other than `VF`, under either value of `VF_ORDER` (`x = 15` is R172:
see `FlagSurvivesInVF` and `ResultSurvivesInVF`). -/
def Obligations.ShiftsSetTheBitShiftedOut : Prop :=
  ∀ (x : RegIdx) (s : State), x ≠ VF →
    (∃ t, exec (.shr x) s = .next t ∧
      (t.getV x).toNat = (s.getV x).toNat / 2 ∧ (t.getV VF).toNat = (s.getV x).toNat % 2 ∧
      Frame [x, VF] [] s t) ∧
    (∃ t, exec (.shl x) s = .next t ∧
      (t.getV x).toNat = (s.getV x).toNat * 2 % 256 ∧ (t.getV VF).toNat = (s.getV x).toNat / 128 ∧
      Frame [x, VF] [] s t)

/-- When the destination is `VF` and the open parameter `VF_ORDER` is `flag_last`, the spec's default,
the flag survives and the result is lost (R172, D13, log 2). -/
def Obligations.FlagSurvivesInVF : Prop :=
  ∀ (y : RegIdx) (s : State), s.cfg.vfOrder = .flagLast →
    (∃ t, exec (.addReg VF y) s = .next t ∧ Frame [VF] [] s t ∧
      t.getV VF = (if 255 < (s.getV VF).toNat + (s.getV y).toNat then 1 else 0)) ∧
    (∃ t, exec (.sub VF y) s = .next t ∧ Frame [VF] [] s t ∧
      t.getV VF = (if (s.getV y).toNat ≤ (s.getV VF).toNat then 1 else 0)) ∧
    (∃ t, exec (.subn VF y) s = .next t ∧ Frame [VF] [] s t ∧
      t.getV VF = (if (s.getV VF).toNat ≤ (s.getV y).toNat then 1 else 0)) ∧
    (∃ t, exec (.shr VF) s = .next t ∧ Frame [VF] [] s t ∧
      (t.getV VF).toNat = (s.getV VF).toNat % 2) ∧
    (∃ t, exec (.shl VF) s = .next t ∧ Frame [VF] [] s t ∧
      (t.getV VF).toNat = (s.getV VF).toNat / 128)

/-- The value of `VF_ORDER` matters only for a flag-writing operation with destination `VF`: every
other instruction does the same under both, and of the two writes of such an operation nothing but
`VF` differs (R172; the order is an open parameter, R7, log 2). -/
def Obligations.VFOrderMattersOnlyForVF : Prop :=
  (∀ (i : Instr) (s : State) (o : Config.VFOrder),
    (∀ y, i ≠ .addReg VF y ∧ i ≠ .sub VF y ∧ i ≠ .subn VF y) → i ≠ .shr VF → i ≠ .shl VF →
    exec i (s.withOrder o) =
      match exec i s with
      | .next t => .next (t.withOrder o)
      | .fault e => .fault e
      | .refused r => .refused r) ∧
  (∀ (x q : RegIdx) (r : Flagged) (s : State),
    (x ≠ VF → s.writeFlagged .flagLast x r = s.writeFlagged .resultLast x r) ∧
    (s.writeFlagged .flagLast VF r).getV VF = r.flag ∧
    (s.writeFlagged .resultLast VF r).getV VF = r.result ∧
    (q ≠ x → q ≠ VF → (s.writeFlagged .flagLast x r).getV q = s.getV q))

/-- `RND` for EVERY random byte the host may present: the byte masked with `kk`; the next byte is
free again (R170, D20, log 1). -/
def Obligations.RndMasksThePresentedByte : Prop :=
  ∀ (x : RegIdx) (kk b : Byte) (s : State), ∃ t, exec (.rnd x kk) (s.setRnd b) = .next t ∧
    (∀ k, k < 8 → (t.getV x).getLsbD k = (b.getLsbD k && kk.getLsbD k)) ∧
    Frame [x] [.random] s t

/-! ### Index register and memory (43_index_memory.md, 20_memory.md) -/

/-- R191: its encoding and its effect. -/
def Obligations.LoadIndexImmediate : Prop :=
  ∀ (addr : BitVec 12) (s : State), (∃ t, exec (.ldI addr) s = .next t ∧
    t.I.toNat = addr.toNat ∧ Frame [] [.I] s t) ∧
    ∀ w : Word, decodeWord w = some (.ldI addr) ↔ w.toNat = 0xA000 + addr.toNat

/-- `ADD I,Vx` adds the zero-extended register modulo 65536 and `LD F,Vx` sets `I` to five times the
register, for every value of it, with no flag (R192, R196; the wrap and the unmasked formula above
15 are the spec's decisions D14 and D15, logs 17 and 18). -/
def Obligations.IndexArithmetic : Prop :=
  ∀ (x : RegIdx) (s : State),
    (∃ t, exec (.addI x) s = .next t ∧
      t.I.toNat = (s.I.toNat + (s.getV x).toNat) % 65536 ∧ Frame [] [.I] s t) ∧
    (∃ t, exec (.ldF x) s = .next t ∧ t.I.toNat = 5 * (s.getV x).toNat ∧ Frame [] [.I] s t)

/-- R193: `V[0]` to `V[x]` inclusive go to `I` on, every other byte stays, `I` stays; out of range
nothing is stored and `MemOOB` is raised. -/
def Obligations.BlockStoreIsInclusive : Prop :=
  ∀ (x : RegIdx) (s : State),
    (s.I.toNat + x.val ≤ 4095 → ∃ t, exec (.stBlock x) s = .next t ∧
      (∀ i : RegIdx, i.val ≤ x.val → t.byte (s.dataAddr i.val) = s.getV i) ∧
      (∀ a, (∀ i, i ≤ x.val → a ≠ s.dataAddr i) → t.byte a = s.byte a) ∧
      Frame [] [.mem] s t) ∧
    (4095 < s.I.toNat + x.val →
      exec (.stBlock x) s = .fault (.memOOB (max s.I.toNat 4096)))

/-- R194: `V[0]` to `V[x]` inclusive come from `I` on, the registers above stay; out of range no
register is written and `MemOOB` is raised. -/
def Obligations.BlockLoadIsInclusive : Prop :=
  ∀ (x : RegIdx) (s : State),
    (s.I.toNat + x.val ≤ 4095 → ∃ t, exec (.ldBlock x) s = .next t ∧
      (∀ i : RegIdx, i.val ≤ x.val → t.getV i = s.byte (s.dataAddr i.val)) ∧
      Frame (regsUpTo x) [] s t) ∧
    (4095 < s.I.toNat + x.val →
      exec (.ldBlock x) s = .fault (.memOOB (max s.I.toNat 4096)))

/-- R195: hundreds, tens and ones at `I`, `I + 1` and `I + 2`: digits that make up the register's
value again; out of range nothing is stored and `MemOOB` is raised. -/
def Obligations.DecimalStoreWritesThreeDigits : Prop :=
  ∀ (x : RegIdx) (s : State),
    (s.I.toNat + 2 ≤ 4095 → ∃ t, exec (.ldB x) s = .next t ∧
      (t.byte (s.dataAddr 0)).toNat = (s.getV x).toNat / 100 ∧
      (t.byte (s.dataAddr 1)).toNat = (s.getV x).toNat / 10 % 10 ∧
      (t.byte (s.dataAddr 2)).toNat = (s.getV x).toNat % 10 ∧
      (∀ a, (∀ i, i ≤ 2 → a ≠ s.dataAddr i) → t.byte a = s.byte a) ∧
      Frame [] [.mem] s t) ∧
    (4095 < s.I.toNat + 2 → exec (.ldB x) s = .fault (.memOOB (max s.I.toNat 4096)))

/-- A block load gets back what a block store of the same registers put there, whatever the
registers have become in between (R193, R194), on the same machine: its parameters never change
(`ParametersNeverChange`), and the memory list is read against its `FONT` (logs 5 and 26). -/
def Obligations.BlockLoadUndoesBlockStore : Prop :=
  ∀ (x : RegIdx) (s t u : State), exec (.stBlock x) s = .next t → u.I = s.I → u.mem = t.mem →
    u.cfg = t.cfg →
    ∃ v, exec (.ldBlock x) u = .next v ∧ ∀ i : RegIdx, i.val ≤ x.val → v.getV i = s.getV i

/-- A byte pair stored by one instruction is the word the next fetch at that address sees (R76,
R69). -/
def Obligations.StoresAreSeenByTheNextFetch : Prop :=
  ∀ (x i j : RegIdx) (s t : State), exec (.stBlock x) s = .next t → j.val ≤ x.val →
    j.val = i.val + 1 → t.pc.toNat = s.dataAddr i.val →
    t.fetchWord.toNat = (s.getV i).toNat * 256 + (s.getV j).toNat

/-- `LD F,Vx` of a digit points `I` at the five bytes of its glyph, as long as the glyph table is as
seeded, whatever `FONT` is (R64, R65, R196; the source's property, 95_test_vectors.md A5). -/
def Obligations.GlyphOfEveryDigit : Prop :=
  ∀ (x : RegIdx) (s : State), (s.getV x).toNat ≤ 15 →
    (∀ a, a < 80 → some (s.byte a) = s.cfg.font[a]?) →
    ∃ t, exec (.ldF x) s = .next t ∧
      ∀ k, k < 5 → some (t.byte (t.dataAddr k)) = s.cfg.font[5 * (s.getV x).toNat + k]?

/-! ### Display (44_display.md) -/

/-- R211: its effect and its encoding. That 0x00E0 is its ONLY word, so that 0x01E0 is none of it, is
the spec's own choice (R99, D10, log 10). -/
def Obligations.ClsClearsTheScreen : Prop :=
  (∀ s : State, ∃ t, exec .cls s = .next t ∧
    (∀ x y, Framebuffer.cell t.FB x y = false) ∧ t.redraw = true ∧ Frame [] [.FB, .redraw] s t) ∧
  ∀ w : Word, decodeWord w = some .cls ↔ w = 0x00E0

/-- `DRW` in closed form: exactly the cells under a set bit of the sprite change, columns wrapping
and rows clipped, `VF` says whether any of them was lit, and both `VF` and `redraw` are always
written; when the sprite leaves memory nothing changes and `MemOOB` is raised (R213 to R216; the
clipping is the spec's decision D16 and `n = 0` its D17, log 16). -/
def Obligations.DrawXorsTheSprite : Prop :=
  ∀ (x y : RegIdx) (n : Fin 16) (s : State),
    (n.val = 0 ∨ s.I.toNat + n.val - 1 ≤ 4095 → ∃ t, exec (.drw x y n) s = .next t ∧
      (∀ px py, px < 64 → py < 32 →
        Framebuffer.cell t.FB px py =
          (Framebuffer.cell s.FB px py !=
            spriteBit s (s.getV x).toNat (s.getV y).toNat n.val px py)) ∧
      (t.getV VF = 1 ∨ t.getV VF = 0) ∧
      (t.getV VF = 1 ↔ ∃ px py, px < 64 ∧ py < 32 ∧ Framebuffer.cell s.FB px py = true ∧
        spriteBit s (s.getV x).toNat (s.getV y).toNat n.val px py = true) ∧
      t.redraw = true ∧ Frame [VF] [.FB, .redraw] s t) ∧
    (1 ≤ n.val → 4095 < s.I.toNat + n.val - 1 →
      exec (.drw x y n) s = .fault (.memOOB (max s.I.toNat 4096)))

/-- R217: the same draw twice restores the framebuffer exactly; if the first was onto a blank screen
its flag is 0, and the second's is 1 as soon as the first lit any cell. -/
def Obligations.DrawTwiceIsIdentity : Prop :=
  ∀ (x y : RegIdx) (n : Fin 16) (s t : State), exec (.drw x y n) s = .next t →
    ∃ v, exec (.drw x y n) { t with V := s.V } = .next v ∧ v.FB = s.FB ∧
      (s.FB = Framebuffer.blank →
        t.getV VF = 0 ∧ (t.FB ≠ Framebuffer.blank → v.getV VF = 1))

/-! ### Key wait and timer (45_key_timer.md) -/

/-- R232. -/
def Obligations.LoadDelayTimer : Prop :=
  ∀ (x : RegIdx) (s : State), ∃ t, exec (.ldDT x) s = .next t ∧
    t.DT = s.getV x ∧ Frame [] [.DT] s t

/-- R231: the operation sets the latch only; then any number of steps change nothing; then a key
delivery writes the key to the register, clears the latch, and execution goes on at `npc`. -/
def Obligations.KeyWaitHoldsUntilDelivery : Prop :=
  ∀ (x : RegIdx) (s : State), ∃ t, exec (.ldKey x) s = .next t ∧
    t.wait = ⟨true, x⟩ ∧ Frame [] [.wait] s t ∧
    ∀ (bytes : List Byte) (key : BitVec 4) (u v : State),
      u = transactAll (bytes.map .step) t → v = (transact (.deliverKey key) u).state →
      Frame [] [.random] t u ∧ (v.getV x).toNat = key.toNat ∧ v.wait.active = false ∧
      Frame [x] [.wait, .random] s v

/-! ### The host interface (46_host_interface.md, 70_reset_and_hazards.md) -/

/-- A key delivery while waiting writes the key and clears the latch, changing nothing else; while
running it changes nothing (R244; the 4-bit key is the spec's decision D22, log 8). -/
def Obligations.KeyDeliveryOnlyWhileWaiting : Prop :=
  ∀ (key : BitVec 4) (s : State),
    (s.wait.active = true → ∃ t, transact (.deliverKey key) s = ⟨.done, t⟩ ∧
      (t.getV s.wait.reg).toNat = key.toNat ∧ t.wait.active = false ∧
      Frame [s.wait.reg] [.wait] s t) ∧
    (s.wait.active = false → transact (.deliverKey key) s = ⟨.done, s⟩)

/-- A load of at most 3584 bytes leaves exactly the reset state with the program at 0x200, whatever
the state was, its glyph table seeded again whatever `FONT` is (R241, R63, R64; the values the source
does not give are the spec's decisions D2 and D3, logs 4 and 5). -/
def Obligations.LoadInstallsTheProgram : Prop :=
  ∀ (bytes : List Byte) (s : State), bytes.length ≤ 3584 →
    ∃ t, transact (.load bytes) s = ⟨.ok, t⟩ ∧
      (∀ k, k < bytes.length → some (t.byte (0x200 + k)) = bytes[k]?) ∧
      (∀ a, a < 80 → some (t.byte a) = s.cfg.font[a]?) ∧
      (∀ a, 80 ≤ a → a < 4096 → (a < 0x200 ∨ 0x200 + bytes.length ≤ a) → t.byte a = 0) ∧
      t.mem.wf t.cfg.font = true ∧ (∀ r, t.getV r = 0) ∧ t.I = 0 ∧ t.pc = 0x200 ∧ t.sp = 0 ∧
      (∀ k, t.slot k = 0) ∧ t.DT = 0 ∧ t.ST = 0 ∧ t.wait = ⟨false, 0⟩ ∧
      t.FB = Framebuffer.blank ∧ t.redraw = false ∧ t.cfg = s.cfg

/-- R242: a longer program is rejected with its length and nothing changes. -/
def Obligations.OverlongLoadIsRejected : Prop :=
  ∀ (bytes : List Byte) (s : State), 3584 < bytes.length →
    transact (.load bytes) s = ⟨.error (.romTooLarge bytes.length), s⟩

/-- The state at construction is the state after a load of the empty program, from any state of a
machine with the same parameters, but for the host's random input (R290, D4, log 4). -/
def Obligations.ConstructionIsTheEmptyLoad : Prop :=
  ∀ s : State, transact (.load []) s =
    ⟨.ok, { State.resetWith s.cfg with rnd := s.rnd, draws := s.draws }⟩

/-- R249: the host's timer writes set the timer and nothing else, any value, and change nothing that
the program computes: with other timer values every step gives the same result but for the timers
themselves. -/
def Obligations.TimersNeverAffectTheProgram : Prop :=
  (∀ (v : Byte) (s : State),
    (transact (.setDelayTimer v) s).state = { s with DT := v } ∧
    (transact (.setSoundTimer v) s).state = { s with ST := v }) ∧
  (∀ (s : State) (d e : Byte),
    match step s with
    | .next t => ∃ d', step { s with DT := d, ST := e } = .next { t with DT := d', ST := e }
    | .fault f => step { s with DT := d, ST := e } = .fault f
    | .refused r => step { s with DT := d, ST := e } = .refused r)

/-- The reading transactions return the framebuffer, the redraw flag and the timers and change nothing;
the clear transaction clears the redraw flag and changes nothing else (R245 to R248; the framebuffer
is returned as the model holds it, 32 rows of 64 bits, log 15). -/
def Obligations.DisplayAndTimerReads : Prop :=
  ∀ s : State,
    transact .framebuffer s = ⟨.pixels s.FB, s⟩ ∧
    transact .redrawPending s = ⟨.flag s.redraw, s⟩ ∧
    transact .delayTimer s = ⟨.byte s.DT, s⟩ ∧
    transact .soundTimer s = ⟨.byte s.ST, s⟩ ∧
    (transact .clearRedraw s).state.redraw = false ∧
    Frame [] [.redraw] s (transact .clearRedraw s).state

/-- What the host cannot do: of its transactions only a step, a load and a key delivery change a
register, `I`, `pc`, the stack, the latch, the framebuffer or memory; a key delivery changes none of
these but the awaited register and the latch; and none but a step sets the redraw flag (R253). -/
def Obligations.HostCannotReachTheProgramState : Prop :=
  ∀ (tx : Transaction) (s : State),
    ((∀ b, tx ≠ .step b) → (∀ bytes, tx ≠ .load bytes) →
      Frame (if s.wait.active then [s.wait.reg] else []) [.DT, .ST, .redraw, .wait]
        s (transact tx s).state) ∧
    ((∀ key, tx ≠ .deliverKey key) → (∀ b, tx ≠ .step b) → (∀ bytes, tx ≠ .load bytes) →
      Frame [] [.DT, .ST, .redraw] s (transact tx s).state) ∧
    ((∀ b, tx ≠ .step b) → (transact tx s).state.redraw = true → s.redraw = true)

/-! ### The open parameters (00_scope.md R7) -/

/-- The open parameters are arguments of the machine: no transaction changes them, for every value of
them (R7). -/
def Obligations.ParametersNeverChange : Prop :=
  ∀ (tx : Transaction) (s : State), (transact tx s).state.cfg = s.cfg

/-- When the destination is `VF` and the open parameter `VF_ORDER` is `result_last`, the result
survives and the flag is lost (R172, D13, log 2). -/
def Obligations.ResultSurvivesInVF : Prop :=
  ∀ (y : RegIdx) (s : State), s.cfg.vfOrder = .resultLast →
    (∃ t, exec (.addReg VF y) s = .next t ∧ Frame [VF] [] s t ∧
      (t.getV VF).toNat = ((s.getV VF).toNat + (s.getV y).toNat) % 256) ∧
    (∃ t, exec (.sub VF y) s = .next t ∧ Frame [VF] [] s t ∧
      ((t.getV VF).toNat : Int) = ((s.getV VF).toNat - (s.getV y).toNat : Int) % 256) ∧
    (∃ t, exec (.subn VF y) s = .next t ∧ Frame [VF] [] s t ∧
      ((t.getV VF).toNat : Int) = ((s.getV y).toNat - (s.getV VF).toNat : Int) % 256) ∧
    (∃ t, exec (.shr VF) s = .next t ∧ Frame [VF] [] s t ∧
      (t.getV VF).toNat = (s.getV VF).toNat / 2) ∧
    (∃ t, exec (.shl VF) s = .next t ∧ Frame [VF] [] s t ∧
      (t.getV VF).toNat = (s.getV VF).toNat * 2 % 256)
end

