-- ==== Sys2Proof/Laws/Blit.lean ====
section
/-! SUPPORT. What the XOR-blit engine can do to a cell and to the collision flag, said once for each
of its operations: a toggle, a sprite bit, a sprite row. -/

namespace Sys2Proof.Machine

variable {fb : Framebuffer}

/-! ### Cells -/

theorem Framebuffer.row_toggle (x y py : Nat) (hy : y < 32) :
    Framebuffer.row (Framebuffer.toggle fb x y) py =
      if py = y then Framebuffer.row fb y ^^^ (1#64 <<< x) else Framebuffer.row fb py := by
  by_cases h : py = y
  · subst h
    simp [Framebuffer.row, Framebuffer.toggle, hy]
  · have : y ≠ py := fun e => h e.symm
    simp [Framebuffer.row, Framebuffer.toggle, h, this]

/-- A toggle flips its own cell and no other. -/
theorem Framebuffer.cell_toggle {x y : Nat} (hx : x < 64) (hy : y < 32) (px py : Nat) :
    Framebuffer.cell (Framebuffer.toggle fb x y) px py =
      (Framebuffer.cell fb px py != decide (px = x ∧ py = y)) := by
  simp only [Framebuffer.cell, Framebuffer.row_toggle x y py hy]
  by_cases h : py = y
  · subst h
    simp only [if_pos, BitVec.getLsbD_xor, BitVec.getLsbD_shiftLeft, BitVec.getLsbD_one]
    grind
  · simp [h]

@[simp] theorem Framebuffer.cell_blank (px py : Nat) :
    Framebuffer.cell Framebuffer.blank px py = false := by
  by_cases h : py < 32 <;> simp [Framebuffer.cell, Framebuffer.row, Framebuffer.blank, h]

/-- Framebuffers with the same cells are the same. -/
theorem Framebuffer.ext_cell {fb fb' : Framebuffer}
    (h : ∀ px py, px < 64 → py < 32 → Framebuffer.cell fb px py = Framebuffer.cell fb' px py) :
    fb = fb' := by
  apply Vector.ext
  intro y hy
  apply BitVec.eq_of_getLsbD_eq
  intro x hx
  have := h x y hx hy
  simpa [Framebuffer.cell, Framebuffer.row, hy] using this

/-! ### Sprite bits and rows -/

theorem blitColumn_lt (x0 k : Nat) : blitColumn x0 k < 64 := Nat.mod_lt _ (by decide)

/-- The eight columns of a sprite row are different. -/
theorem blitColumn_inj {x0 k j : Nat} (hk : k < 8) (hj : j < 8)
    (h : blitColumn x0 k = blitColumn x0 j) : k = j := by
  unfold blitColumn at h
  omega

/-- One sprite bit flips its cell if it is set, and reports the cell if it was lit. -/
theorem Blit.bit_spec {x0 yy : Nat} (hy : yy < 32) (b : Byte) (d : Blit) (k : Nat) :
    (∀ px py, Framebuffer.cell (Blit.bit x0 yy b d k).fb px py =
      (Framebuffer.cell d.fb px py !=
        (b.getLsbD (7 - k) && decide (px = blitColumn x0 k ∧ py = yy)))) ∧
    (Blit.bit x0 yy b d k).collision =
      (d.collision || (b.getLsbD (7 - k) && Framebuffer.cell d.fb (blitColumn x0 k) yy)) := by
  unfold Blit.bit
  cases h : b.getLsbD (7 - k) with
  | false => simp
  | true => simp [Framebuffer.cell_toggle (blitColumn_lt x0 k) hy]

/-- Sprite bits at different places: together they flip the cells under those that are set, and
report a collision if one of those cells was lit before the first. -/
theorem Blit.bits_spec {x0 yy : Nat} (hy : yy < 32) (b : Byte) (ks : List Nat) (d : Blit)
    (hlt : ∀ k ∈ ks, k < 8) (hnd : ks.Nodup) :
    (∀ px py, Framebuffer.cell (ks.foldl (Blit.bit x0 yy b) d).fb px py =
      (Framebuffer.cell d.fb px py !=
        ks.any (fun k => b.getLsbD (7 - k) && decide (px = blitColumn x0 k ∧ py = yy)))) ∧
    (ks.foldl (Blit.bit x0 yy b) d).collision =
      (d.collision || ks.any (fun k => b.getLsbD (7 - k) && Framebuffer.cell d.fb (blitColumn x0 k) yy)) := by
  induction ks generalizing d with
  | nil => simp
  | cons k ks ih =>
    obtain ⟨hk, hnd⟩ := List.nodup_cons.1 hnd
    obtain ⟨ih1, ih2⟩ := ih (Blit.bit x0 yy b d k) (fun j hj => hlt j (List.mem_cons_of_mem _ hj)) hnd
    obtain ⟨h1, h2⟩ := Blit.bit_spec (x0 := x0) hy b d k
    have hk8 := hlt k List.mem_cons_self
    have hne : ∀ j ∈ ks, blitColumn x0 j ≠ blitColumn x0 k := fun j hj e =>
      hk (blitColumn_inj (hlt j (List.mem_cons_of_mem _ hj)) hk8 e ▸ hj)
    constructor
    · intro px py
      rw [List.foldl_cons, ih1, h1, List.any_cons]
      by_cases hp : px = blitColumn x0 k ∧ py = yy
      · have : ks.any (fun j => b.getLsbD (7 - j) && decide (px = blitColumn x0 j ∧ py = yy)) = false := by
          rw [List.any_eq_false]
          intro j hj
          have := hne j hj
          simp [hp.1, this.symm]
        rw [this, Bool.or_false, Bool.bne_false]
      · simp [hp]
    · rw [List.foldl_cons, ih2, h2, List.any_cons]
      have : ks.any (fun j => b.getLsbD (7 - j) &&
            Framebuffer.cell (Blit.bit x0 yy b d k).fb (blitColumn x0 j) yy) =
          ks.any (fun j => b.getLsbD (7 - j) && Framebuffer.cell d.fb (blitColumn x0 j) yy) := by
        rw [Bool.eq_iff_iff, List.any_eq_true, List.any_eq_true]
        constructor <;> rintro ⟨j, hj, h⟩ <;> refine ⟨j, hj, ?_⟩ <;>
          simpa [h1, hne j hj] using h
      rw [this, Bool.or_assoc]

/-- One sprite row in closed form: the cells under its set bits are flipped, and the collision is
that one of them was lit; a row below the screen does nothing. -/
theorem Blit.row_spec (x0 yy : Nat) (b : Byte) (d : Blit) :
    (∀ px py, Framebuffer.cell (Blit.row x0 yy b d).fb px py =
      (Framebuffer.cell d.fb px py != (decide (yy ≤ 31) && [0, 1, 2, 3, 4, 5, 6, 7].any
        (fun k => b.getLsbD (7 - k) && decide (px = blitColumn x0 k ∧ py = yy))))) ∧
    (Blit.row x0 yy b d).collision =
      (d.collision || (decide (yy ≤ 31) && [0, 1, 2, 3, 4, 5, 6, 7].any
        (fun k => b.getLsbD (7 - k) && Framebuffer.cell d.fb (blitColumn x0 k) yy))) := by
  unfold Blit.row
  split
  · rename_i h
    obtain ⟨h1, h2⟩ := Blit.bits_spec (x0 := x0) (yy := yy) (by omega) b [0, 1, 2, 3, 4, 5, 6, 7] d
      (by decide) (by decide)
    exact ⟨fun px py => by rw [h1]; simp [h], by rw [h2]; simp [h]⟩
  · rename_i h
    simp [h]

end Sys2Proof.Machine
end

