-- ==== Sys2Proof/Laws/Decode.lean ====
section
/-! SUPPORT. The fields and the layouts of the instruction word as arithmetic on its value. -/

namespace Sys2Proof

variable (w : Word)

/-! ### Fields -/

theorem opField_toNat : (opField w).toNat = w.toNat / 4096 := by
  have := w.isLt
  simp [opField, BitVec.extractLsb'_toNat, Nat.shiftRight_eq_div_pow]
  omega

theorem xField_val : (xField w).val = w.toNat / 256 % 16 := by
  simp [xField, Nat.shiftRight_eq_div_pow]

theorem yField_val : (yField w).val = w.toNat / 16 % 16 := by
  simp [yField, Nat.shiftRight_eq_div_pow]

theorem nField_toNat : (nField w).toNat = w.toNat % 16 := by
  simp [nField, BitVec.extractLsb'_toNat]

theorem kkField_toNat : (kkField w).toNat = w.toNat % 256 := by
  simp [kkField, BitVec.extractLsb'_toNat]

theorem addrField_toNat : (addrField w).toNat = w.toNat % 4096 := by
  simp [addrField, BitVec.extractLsb'_toNat]

theorem highByte_toNat : (highByte w).toNat = w.toNat / 256 := by
  have := w.isLt
  simp [highByte, BitVec.extractLsb'_toNat, Nat.shiftRight_eq_div_pow]
  omega

theorem lowByte_toNat : (lowByte w).toNat = w.toNat % 256 := by
  simp [lowByte, BitVec.extractLsb'_toNat]

/-! ### Layouts -/

theorem wordOfBytes_toNat (hi lo : Byte) :
    (wordOfBytes hi lo).toNat = hi.toNat * 256 + lo.toNat := by
  have := lo.isLt
  simp only [wordOfBytes, BitVec.toNat_append]
  rw [← Nat.shiftLeft_add_eq_or_of_lt (by omega), Nat.shiftLeft_eq]

/-- A word is the word of its two bytes. -/
@[simp] theorem wordOfBytes_high_low : wordOfBytes (highByte w) (lowByte w) = w := by
  apply BitVec.eq_of_toNat_eq
  rw [wordOfBytes_toNat, highByte_toNat, lowByte_toNat]
  omega

theorem packNNN_toNat (op : BitVec 4) (addr : BitVec 12) :
    (packNNN op addr).toNat = op.toNat * 4096 + addr.toNat := by
  have := addr.isLt
  simp only [packNNN, BitVec.toNat_append]
  rw [← Nat.shiftLeft_add_eq_or_of_lt (by omega), Nat.shiftLeft_eq]

theorem packXKK_toNat (op : BitVec 4) (x : RegIdx) (kk : Byte) :
    (packXKK op x kk).toNat = op.toNat * 4096 + x.val * 256 + kk.toNat := by
  have := kk.isLt
  have := x.isLt
  simp only [packXKK, BitVec.toNat_append, BitVec.toNat_ofFin]
  rw [← Nat.shiftLeft_add_eq_or_of_lt (by omega), ← Nat.shiftLeft_add_eq_or_of_lt (by omega)]
  simp only [Nat.shiftLeft_eq]
  omega

theorem packXYN_toNat (op : BitVec 4) (x y n : Fin 16) :
    (packXYN op x y n).toNat = op.toNat * 4096 + x.val * 256 + y.val * 16 + n.val := by
  have := x.isLt
  have := y.isLt
  have := n.isLt
  simp only [packXYN, BitVec.toNat_append, BitVec.toNat_ofFin]
  rw [← Nat.shiftLeft_add_eq_or_of_lt (by omega), ← Nat.shiftLeft_add_eq_or_of_lt (by omega),
    ← Nat.shiftLeft_add_eq_or_of_lt (by omega)]
  simp only [Nat.shiftLeft_eq]
  omega

/-! ### Fields of a layout -/

@[simp] theorem opField_packNNN (op : BitVec 4) (a : BitVec 12) : opField (packNNN op a) = op := by
  apply BitVec.eq_of_toNat_eq
  have := a.isLt
  rw [opField_toNat, packNNN_toNat]
  omega

@[simp] theorem addrField_packNNN (op : BitVec 4) (a : BitVec 12) :
    addrField (packNNN op a) = a := by
  apply BitVec.eq_of_toNat_eq
  have := a.isLt
  rw [addrField_toNat, packNNN_toNat]
  omega

@[simp] theorem opField_packXKK (op : BitVec 4) (x : RegIdx) (kk : Byte) :
    opField (packXKK op x kk) = op := by
  apply BitVec.eq_of_toNat_eq
  have := x.isLt
  have := kk.isLt
  rw [opField_toNat, packXKK_toNat]
  omega

@[simp] theorem xField_packXKK (op : BitVec 4) (x : RegIdx) (kk : Byte) :
    xField (packXKK op x kk) = x := by
  apply Fin.ext
  have := x.isLt
  have := kk.isLt
  rw [xField_val, packXKK_toNat]
  omega

@[simp] theorem kkField_packXKK (op : BitVec 4) (x : RegIdx) (kk : Byte) :
    kkField (packXKK op x kk) = kk := by
  apply BitVec.eq_of_toNat_eq
  have := x.isLt
  have := kk.isLt
  rw [kkField_toNat, packXKK_toNat]
  omega

@[simp] theorem opField_packXYN (op : BitVec 4) (x y n : Fin 16) :
    opField (packXYN op x y n) = op := by
  apply BitVec.eq_of_toNat_eq
  rw [opField_toNat, packXYN_toNat]
  omega

@[simp] theorem xField_packXYN (op : BitVec 4) (x y n : Fin 16) :
    xField (packXYN op x y n) = x := by
  apply Fin.ext
  rw [xField_val, packXYN_toNat]
  omega

@[simp] theorem yField_packXYN (op : BitVec 4) (x y n : Fin 16) :
    yField (packXYN op x y n) = y := by
  apply Fin.ext
  rw [yField_val, packXYN_toNat]
  omega

@[simp] theorem nField_packXYN (op : BitVec 4) (x y n : Fin 16) :
    nField (packXYN op x y n) = BitVec.ofFin (w := 4) n := by
  apply BitVec.eq_of_toNat_eq
  have := n.isLt
  rw [nField_toNat, packXYN_toNat, BitVec.toNat_ofFin]
  show _ = n.val
  omega

/-! ### Bits of a layout, and the masks of the opcode map -/

theorem getLsbD_packXYN (op : BitVec 4) (x y n : Fin 16) (i : Nat) :
    (packXYN op x y n).getLsbD i =
      if i < 4 then (BitVec.ofFin (w := 4) n).getLsbD i
      else if i < 8 then (BitVec.ofFin (w := 4) y).getLsbD (i - 4)
      else if i < 12 then (BitVec.ofFin (w := 4) x).getLsbD (i - 8) else op.getLsbD (i - 12) := by
  have h : (packXYN op x y n).getLsbD i = BitVec.getLsbD (w := 4 + 4 + 4 + 4)
    (op ++ BitVec.ofFin (w := 4) x ++ BitVec.ofFin (w := 4) y ++ BitVec.ofFin (w := 4) n) i := rfl
  rw [h, BitVec.getLsbD_append, BitVec.getLsbD_append, BitVec.getLsbD_append]
  grind

theorem getLsbD_packXKK (op : BitVec 4) (x : Fin 16) (kk : Byte) (i : Nat) :
    (packXKK op x kk).getLsbD i =
      if i < 8 then kk.getLsbD i
      else if i < 12 then (BitVec.ofFin (w := 4) x).getLsbD (i - 8) else op.getLsbD (i - 12) := by
  have h : (packXKK op x kk).getLsbD i = BitVec.getLsbD (w := 4 + 4 + 8)
    (op ++ BitVec.ofFin (w := 4) x ++ kk) i := rfl
  rw [h, BitVec.getLsbD_append, BitVec.getLsbD_append]
  grind

/-- The mask 0xF000 keeps the family. -/
theorem and_F000 (w : Word) : w &&& 0xF000#16 = packXYN (opField w) 0 0 0 := by
  apply BitVec.eq_of_getLsbD_eq
  intro i hi
  rw [getLsbD_packXYN, opField]
  interval_cases i <;> simp

/-- The mask 0xF00F keeps the family and the low nibble. -/
theorem and_F00F (w : Word) : w &&& 0xF00F#16 = packXYN (opField w) 0 0 (nField w).toFin := by
  apply BitVec.eq_of_getLsbD_eq
  intro i hi
  rw [getLsbD_packXYN, opField, BitVec.ofFin_toFin, nField]
  interval_cases i <;> simp

/-- The mask 0xF0FF keeps the family and the low byte. -/
theorem and_F0FF (w : Word) : w &&& 0xF0FF#16 = packXKK (opField w) 0 (kkField w) := by
  apply BitVec.eq_of_getLsbD_eq
  intro i hi
  rw [getLsbD_packXKK, opField, kkField]
  interval_cases i <;> simp

end Sys2Proof
end

