-- ==== Sys2Proof/Laws/Memory.lean ====
section
/-! SUPPORT. The laws of memory: reading after writing, the canonical form, runs of bytes, and the
bounds check. -/

namespace Sys2Proof.Machine

variable {f : Config.Font}

/-! ### The bounds check -/

theorem outOfRange_eq_none {base k : Nat} :
    outOfRange base k = none ↔ k = 0 ∨ base + k ≤ 4096 := by
  unfold outOfRange
  split <;> simp <;> omega

theorem outOfRange_eq_some {base k a : Nat} :
    outOfRange base k = some a ↔ 1 ≤ k ∧ 4096 < base + k ∧ a = max base 4096 := by
  unfold outOfRange
  split <;> simp <;> omega

/-! ### Lookup after an update of the list -/

theorem Memory.lookup_insertCell (m : Memory) (a a' : Nat) (b : Byte) :
    (m.insertCell a b).lookup a' = if a' = a then some b else m.lookup a' := by
  induction m with
  | nil => simp [Memory.insertCell, Memory.lookup]
  | cons c m ih =>
    obtain ⟨k, v⟩ := c
    simp only [Memory.insertCell]
    split
    · simp [Memory.lookup]
    · split
      · subst_vars
        by_cases h : a' = k <;> simp [Memory.lookup, h]
      · by_cases h : a' = k
        · subst h
          simp [Memory.lookup]
          omega
        · simp [Memory.lookup, h, ih]

/-- No address below `lo` is listed in a canonical list from `lo` on. -/
theorem Memory.lookup_eq_none_of_lt {lo : Nat} {m : Memory} (h : m.wfFrom f lo = true) {a : Nat}
    (ha : a < lo) : m.lookup a = none := by
  induction m generalizing lo with
  | nil => rfl
  | cons c m ih =>
    obtain ⟨k, v⟩ := c
    simp only [Memory.wfFrom, Bool.and_eq_true, decide_eq_true_eq] at h
    have : a ≠ k := by omega
    simp [Memory.lookup, this, ih h.2 (by omega)]

theorem Memory.lookup_eraseCell (m : Memory) (a a' : Nat) :
    (m.eraseCell a).lookup a' = if a' = a then none else m.lookup a' := by
  induction m with
  | nil => simp [Memory.eraseCell, Memory.lookup]
  | cons c m ih =>
    obtain ⟨k, v⟩ := c
    simp only [Memory.eraseCell]
    by_cases hk : a = k
    · subst hk
      rw [if_pos rfl, ih]
      by_cases h' : a' = a <;> simp [Memory.lookup, h']
    · by_cases h' : a' = k
      · subst h'
        simp [hk, Memory.lookup, Ne.symm hk]
      · simp [hk, Memory.lookup, h', ih]

/-! ### The canonical form is kept -/

theorem Memory.wfFrom_mono {lo lo' : Nat} (hle : lo' ≤ lo) {m : Memory} (h : m.wfFrom f lo = true) :
    m.wfFrom f lo' = true := by
  cases m with
  | nil => rfl
  | cons c m =>
    obtain ⟨k, v⟩ := c
    simp only [Memory.wfFrom, Bool.and_eq_true, decide_eq_true_eq] at h ⊢
    exact ⟨⟨⟨by omega, h.1.1.2⟩, h.1.2⟩, h.2⟩

theorem Memory.wfFrom_insertCell {lo : Nat} {m : Memory} (h : m.wfFrom f lo = true) {a : Nat}
    {b : Byte} (hlo : lo ≤ a) (ha : a < Config.memSize) (hb : b ≠ Memory.resetByte f a) :
    (m.insertCell a b).wfFrom f lo = true := by
  induction m generalizing lo with
  | nil => simp [Memory.insertCell, Memory.wfFrom, hlo, ha, hb]
  | cons c m ih =>
    obtain ⟨k, v⟩ := c
    simp only [Memory.wfFrom, Bool.and_eq_true, decide_eq_true_eq] at h
    simp only [Memory.insertCell]
    split
    · simp only [Memory.wfFrom, Bool.and_eq_true, decide_eq_true_eq]
      exact ⟨⟨⟨hlo, ha⟩, hb⟩, ⟨⟨by omega, h.1.1.2⟩, h.1.2⟩, h.2⟩
    · split
      · subst_vars
        simp only [Memory.wfFrom, Bool.and_eq_true, decide_eq_true_eq]
        exact ⟨⟨⟨hlo, ha⟩, hb⟩, h.2⟩
      · simp only [Memory.wfFrom, Bool.and_eq_true, decide_eq_true_eq]
        exact ⟨h.1, ih h.2 (by omega)⟩

theorem Memory.wfFrom_eraseCell {lo : Nat} {m : Memory} (h : m.wfFrom f lo = true) (a : Nat) :
    (m.eraseCell a).wfFrom f lo = true := by
  induction m generalizing lo with
  | nil => rfl
  | cons c m ih =>
    obtain ⟨k, v⟩ := c
    simp only [Memory.wfFrom, Bool.and_eq_true, decide_eq_true_eq] at h
    simp only [Memory.eraseCell]
    split
    · exact Memory.wfFrom_mono (by omega) (ih h.2)
    · simp only [Memory.wfFrom, Bool.and_eq_true, decide_eq_true_eq]
      exact ⟨h.1, ih h.2⟩

/-- A write keeps the canonical form. -/
theorem Memory.wf_write {m : Memory} (h : m.wf f = true) (a : Nat) (b : Byte) :
    (m.write f a b).wf f = true := by
  unfold Memory.write
  split
  · split
    · exact Memory.wfFrom_eraseCell h a
    · exact Memory.wfFrom_insertCell h (Nat.zero_le a) ‹_› ‹_›
  · exact h

/-- A run of writes keeps the canonical form. -/
theorem Memory.wf_storeRun {m : Memory} (h : m.wf f = true) (base : Nat) (bs : List Byte) :
    (m.storeRun f base bs).wf f = true := by
  induction bs generalizing m base with
  | nil => exact h
  | cons b bs ih => exact ih (Memory.wf_write h base b) (base + 1)

/-- The memory after reset has the canonical form, whatever the parameters. -/
theorem Memory.wf_reset (p : Config.Params) : (State.resetWith p).mem.wf f = true := rfl

theorem Memory.wfFrom_ofProgram (base : Nat) (bs : List Byte)
    (h : base + bs.length ≤ Config.memSize) : (Memory.ofProgram f base bs).wfFrom f base = true := by
  induction bs generalizing base with
  | nil => rfl
  | cons b bs ih =>
    simp only [List.length_cons] at h
    have ih := ih (base + 1) (by omega)
    simp only [Memory.ofProgram]
    split
    · exact Memory.wfFrom_mono (by omega) ih
    · rename_i hb
      simp [Memory.wfFrom, ih, hb]
      omega

/-! ### Reading after writing -/

theorem Memory.read_write (m : Memory) {a : Nat} (ha : a < Config.memSize)
    (b : Byte) (a' : Nat) : (m.write f a b).read f a' = if a' = a then b else m.read f a' := by
  unfold Memory.write Memory.read
  rw [if_pos ha]
  split
  · rw [Memory.lookup_eraseCell]
    split <;> simp_all
  · rw [Memory.lookup_insertCell]
    split <;> simp

@[simp] theorem Memory.read_write_self (m : Memory) {a : Nat}
    (ha : a < Config.memSize) (b : Byte) : (m.write f a b).read f a = b := by
  simp [Memory.read_write m ha]

theorem Memory.read_write_ne (m : Memory) {a a' : Nat} (b : Byte)
    (hne : a' ≠ a) : (m.write f a b).read f a' = m.read f a' := by
  by_cases ha : a < Config.memSize
  · simp [Memory.read_write m ha, hne]
  · simp [Memory.write, ha]

/-- Everything a run of writes does: the bytes at `base` on are those written, every other byte is
as before. -/
theorem Memory.read_storeRun (m : Memory) (base : Nat) (bs : List Byte)
    (hb : base + bs.length ≤ Config.memSize) (a : Nat) :
    (m.storeRun f base bs).read f a =
      if base ≤ a ∧ a < base + bs.length then (bs[a - base]?).getD 0 else m.read f a := by
  induction bs generalizing m base with
  | nil =>
    rw [if_neg (by simp)]
    rfl
  | cons b bs ih =>
    simp only [List.length_cons] at hb
    rw [Memory.storeRun, ih (m.write f base b) (base + 1) (by omega),
      Memory.read_write m (by omega)]
    by_cases h0 : a = base
    · subst h0
      simp
    · by_cases h1 : base + 1 ≤ a ∧ a < base + 1 + bs.length
      · have : a - base = (a - (base + 1)) + 1 := by omega
        simp only [List.length_cons]
        rw [if_pos h1, if_pos (by omega), this, List.getElem?_cons_succ]
      · simp only [List.length_cons]
        rw [if_neg h1, if_neg h0, if_neg (by omega)]

@[simp] theorem Memory.length_loadRun (m : Memory) (base k : Nat) :
    (m.loadRun f base k).length = k := by
  induction k generalizing base with
  | zero => rfl
  | succ k ih => simp [Memory.loadRun, ih]

/-- A run of reads answers the bytes of the run, in order. -/
theorem Memory.getElem?_loadRun (m : Memory) (base k i : Nat) (h : i < k) :
    (m.loadRun f base k)[i]? = some (m.read f (base + i)) := by
  induction k generalizing base i with
  | zero => omega
  | succ k ih =>
    cases i with
    | zero => simp [Memory.loadRun]
    | succ i =>
      rw [Memory.loadRun, List.getElem?_cons_succ, ih (base + 1) i (by omega)]
      congr 2
      omega

/-- Everything a program's cells hold: its bytes from `base` on, the reset contents elsewhere. -/
theorem Memory.read_ofProgram (base : Nat) (bs : List Byte)
    (h : base + bs.length ≤ Config.memSize) (a : Nat) :
    (Memory.ofProgram f base bs).read f a =
      if base ≤ a ∧ a < base + bs.length then (bs[a - base]?).getD 0 else Memory.resetByte f a := by
  induction bs generalizing base with
  | nil =>
    rw [if_neg (by simp)]
    rfl
  | cons b bs ih =>
    simp only [List.length_cons] at h
    have ih := ih (base + 1) (by omega)
    have hwf := Memory.wfFrom_ofProgram (f := f) (base + 1) bs (by omega)
    have hread : (Memory.ofProgram f base (b :: bs)).read f a =
        if a = base then b else (Memory.ofProgram f (base + 1) bs).read f a := by
      simp only [Memory.ofProgram]
      split
      · by_cases ha : a = base
        · subst ha
          have := Memory.lookup_eq_none_of_lt hwf (Nat.lt_succ_self a)
          simp_all [Memory.read]
        · simp [ha]
      · by_cases ha : a = base <;> simp [Memory.read, Memory.lookup, ha]
    rw [hread, ih]
    by_cases h0 : a = base
    · subst h0
      simp
    · by_cases h1 : base + 1 ≤ a ∧ a < base + 1 + bs.length
      · have : a - base = (a - (base + 1)) + 1 := by omega
        simp only [List.length_cons]
        rw [if_neg h0, if_pos h1, if_pos (by omega), this, List.getElem?_cons_succ]
      · simp only [List.length_cons]
        rw [if_neg h0, if_neg h1, if_neg (by omega)]

end Sys2Proof.Machine
end

