-- ==== Sys2Proof/Laws/State.lean ====
section
/-! SUPPORT. One lemma per field per update of the state, so that no proof unfolds a record update,
and the laws of the register and stack accessors. -/

namespace Sys2Proof.Machine

variable (s : State)

/-! ### `setV` -/

@[simp] theorem State.setV_V (x : RegIdx) (b : Byte) : (s.setV x b).V = s.V.set x b := rfl
@[simp] theorem State.setV_I (x : RegIdx) (b : Byte) : (s.setV x b).I = s.I := rfl
@[simp] theorem State.setV_pc (x : RegIdx) (b : Byte) : (s.setV x b).pc = s.pc := rfl
@[simp] theorem State.setV_sp (x : RegIdx) (b : Byte) : (s.setV x b).sp = s.sp := rfl
@[simp] theorem State.setV_S (x : RegIdx) (b : Byte) : (s.setV x b).S = s.S := rfl
@[simp] theorem State.setV_DT (x : RegIdx) (b : Byte) : (s.setV x b).DT = s.DT := rfl
@[simp] theorem State.setV_ST (x : RegIdx) (b : Byte) : (s.setV x b).ST = s.ST := rfl
@[simp] theorem State.setV_wait (x : RegIdx) (b : Byte) : (s.setV x b).wait = s.wait := rfl
@[simp] theorem State.setV_FB (x : RegIdx) (b : Byte) : (s.setV x b).FB = s.FB := rfl
@[simp] theorem State.setV_redraw (x : RegIdx) (b : Byte) : (s.setV x b).redraw = s.redraw := rfl
@[simp] theorem State.setV_mem (x : RegIdx) (b : Byte) : (s.setV x b).mem = s.mem := rfl
@[simp] theorem State.setV_rnd (x : RegIdx) (b : Byte) : (s.setV x b).rnd = s.rnd := rfl
@[simp] theorem State.setV_draws (x : RegIdx) (b : Byte) : (s.setV x b).draws = s.draws := rfl
@[simp] theorem State.setV_cfg (x : RegIdx) (b : Byte) : (s.setV x b).cfg = s.cfg := rfl

/-! ### `setI` -/

@[simp] theorem State.setI_V (w : Word) : (s.setI w).V = s.V := rfl
@[simp] theorem State.setI_I (w : Word) : (s.setI w).I = w := rfl
@[simp] theorem State.setI_pc (w : Word) : (s.setI w).pc = s.pc := rfl
@[simp] theorem State.setI_sp (w : Word) : (s.setI w).sp = s.sp := rfl
@[simp] theorem State.setI_S (w : Word) : (s.setI w).S = s.S := rfl
@[simp] theorem State.setI_DT (w : Word) : (s.setI w).DT = s.DT := rfl
@[simp] theorem State.setI_ST (w : Word) : (s.setI w).ST = s.ST := rfl
@[simp] theorem State.setI_wait (w : Word) : (s.setI w).wait = s.wait := rfl
@[simp] theorem State.setI_FB (w : Word) : (s.setI w).FB = s.FB := rfl
@[simp] theorem State.setI_redraw (w : Word) : (s.setI w).redraw = s.redraw := rfl
@[simp] theorem State.setI_mem (w : Word) : (s.setI w).mem = s.mem := rfl
@[simp] theorem State.setI_rnd (w : Word) : (s.setI w).rnd = s.rnd := rfl
@[simp] theorem State.setI_draws (w : Word) : (s.setI w).draws = s.draws := rfl
@[simp] theorem State.setI_cfg (w : Word) : (s.setI w).cfg = s.cfg := rfl

/-! ### `setPc` -/

@[simp] theorem State.setPc_V (w : Word) : (s.setPc w).V = s.V := rfl
@[simp] theorem State.setPc_I (w : Word) : (s.setPc w).I = s.I := rfl
@[simp] theorem State.setPc_pc (w : Word) : (s.setPc w).pc = w := rfl
@[simp] theorem State.setPc_sp (w : Word) : (s.setPc w).sp = s.sp := rfl
@[simp] theorem State.setPc_S (w : Word) : (s.setPc w).S = s.S := rfl
@[simp] theorem State.setPc_DT (w : Word) : (s.setPc w).DT = s.DT := rfl
@[simp] theorem State.setPc_ST (w : Word) : (s.setPc w).ST = s.ST := rfl
@[simp] theorem State.setPc_wait (w : Word) : (s.setPc w).wait = s.wait := rfl
@[simp] theorem State.setPc_FB (w : Word) : (s.setPc w).FB = s.FB := rfl
@[simp] theorem State.setPc_redraw (w : Word) : (s.setPc w).redraw = s.redraw := rfl
@[simp] theorem State.setPc_mem (w : Word) : (s.setPc w).mem = s.mem := rfl
@[simp] theorem State.setPc_rnd (w : Word) : (s.setPc w).rnd = s.rnd := rfl
@[simp] theorem State.setPc_draws (w : Word) : (s.setPc w).draws = s.draws := rfl
@[simp] theorem State.setPc_cfg (w : Word) : (s.setPc w).cfg = s.cfg := rfl

/-! ### `setDT` -/

@[simp] theorem State.setDT_V (b : Byte) : (s.setDT b).V = s.V := rfl
@[simp] theorem State.setDT_I (b : Byte) : (s.setDT b).I = s.I := rfl
@[simp] theorem State.setDT_pc (b : Byte) : (s.setDT b).pc = s.pc := rfl
@[simp] theorem State.setDT_sp (b : Byte) : (s.setDT b).sp = s.sp := rfl
@[simp] theorem State.setDT_S (b : Byte) : (s.setDT b).S = s.S := rfl
@[simp] theorem State.setDT_DT (b : Byte) : (s.setDT b).DT = b := rfl
@[simp] theorem State.setDT_ST (b : Byte) : (s.setDT b).ST = s.ST := rfl
@[simp] theorem State.setDT_wait (b : Byte) : (s.setDT b).wait = s.wait := rfl
@[simp] theorem State.setDT_FB (b : Byte) : (s.setDT b).FB = s.FB := rfl
@[simp] theorem State.setDT_redraw (b : Byte) : (s.setDT b).redraw = s.redraw := rfl
@[simp] theorem State.setDT_mem (b : Byte) : (s.setDT b).mem = s.mem := rfl
@[simp] theorem State.setDT_rnd (b : Byte) : (s.setDT b).rnd = s.rnd := rfl
@[simp] theorem State.setDT_draws (b : Byte) : (s.setDT b).draws = s.draws := rfl
@[simp] theorem State.setDT_cfg (b : Byte) : (s.setDT b).cfg = s.cfg := rfl

/-! ### `setST` -/

@[simp] theorem State.setST_V (b : Byte) : (s.setST b).V = s.V := rfl
@[simp] theorem State.setST_I (b : Byte) : (s.setST b).I = s.I := rfl
@[simp] theorem State.setST_pc (b : Byte) : (s.setST b).pc = s.pc := rfl
@[simp] theorem State.setST_sp (b : Byte) : (s.setST b).sp = s.sp := rfl
@[simp] theorem State.setST_S (b : Byte) : (s.setST b).S = s.S := rfl
@[simp] theorem State.setST_DT (b : Byte) : (s.setST b).DT = s.DT := rfl
@[simp] theorem State.setST_ST (b : Byte) : (s.setST b).ST = b := rfl
@[simp] theorem State.setST_wait (b : Byte) : (s.setST b).wait = s.wait := rfl
@[simp] theorem State.setST_FB (b : Byte) : (s.setST b).FB = s.FB := rfl
@[simp] theorem State.setST_redraw (b : Byte) : (s.setST b).redraw = s.redraw := rfl
@[simp] theorem State.setST_mem (b : Byte) : (s.setST b).mem = s.mem := rfl
@[simp] theorem State.setST_rnd (b : Byte) : (s.setST b).rnd = s.rnd := rfl
@[simp] theorem State.setST_draws (b : Byte) : (s.setST b).draws = s.draws := rfl
@[simp] theorem State.setST_cfg (b : Byte) : (s.setST b).cfg = s.cfg := rfl

/-! ### `setWait` -/

@[simp] theorem State.setWait_V (k : KeyWait) : (s.setWait k).V = s.V := rfl
@[simp] theorem State.setWait_I (k : KeyWait) : (s.setWait k).I = s.I := rfl
@[simp] theorem State.setWait_pc (k : KeyWait) : (s.setWait k).pc = s.pc := rfl
@[simp] theorem State.setWait_sp (k : KeyWait) : (s.setWait k).sp = s.sp := rfl
@[simp] theorem State.setWait_S (k : KeyWait) : (s.setWait k).S = s.S := rfl
@[simp] theorem State.setWait_DT (k : KeyWait) : (s.setWait k).DT = s.DT := rfl
@[simp] theorem State.setWait_ST (k : KeyWait) : (s.setWait k).ST = s.ST := rfl
@[simp] theorem State.setWait_wait (k : KeyWait) : (s.setWait k).wait = k := rfl
@[simp] theorem State.setWait_FB (k : KeyWait) : (s.setWait k).FB = s.FB := rfl
@[simp] theorem State.setWait_redraw (k : KeyWait) : (s.setWait k).redraw = s.redraw := rfl
@[simp] theorem State.setWait_mem (k : KeyWait) : (s.setWait k).mem = s.mem := rfl
@[simp] theorem State.setWait_rnd (k : KeyWait) : (s.setWait k).rnd = s.rnd := rfl
@[simp] theorem State.setWait_draws (k : KeyWait) : (s.setWait k).draws = s.draws := rfl
@[simp] theorem State.setWait_cfg (k : KeyWait) : (s.setWait k).cfg = s.cfg := rfl

/-! ### `setFB` -/

@[simp] theorem State.setFB_V (fb : Framebuffer) : (s.setFB fb).V = s.V := rfl
@[simp] theorem State.setFB_I (fb : Framebuffer) : (s.setFB fb).I = s.I := rfl
@[simp] theorem State.setFB_pc (fb : Framebuffer) : (s.setFB fb).pc = s.pc := rfl
@[simp] theorem State.setFB_sp (fb : Framebuffer) : (s.setFB fb).sp = s.sp := rfl
@[simp] theorem State.setFB_S (fb : Framebuffer) : (s.setFB fb).S = s.S := rfl
@[simp] theorem State.setFB_DT (fb : Framebuffer) : (s.setFB fb).DT = s.DT := rfl
@[simp] theorem State.setFB_ST (fb : Framebuffer) : (s.setFB fb).ST = s.ST := rfl
@[simp] theorem State.setFB_wait (fb : Framebuffer) : (s.setFB fb).wait = s.wait := rfl
@[simp] theorem State.setFB_FB (fb : Framebuffer) : (s.setFB fb).FB = fb := rfl
@[simp] theorem State.setFB_redraw (fb : Framebuffer) : (s.setFB fb).redraw = s.redraw := rfl
@[simp] theorem State.setFB_mem (fb : Framebuffer) : (s.setFB fb).mem = s.mem := rfl
@[simp] theorem State.setFB_rnd (fb : Framebuffer) : (s.setFB fb).rnd = s.rnd := rfl
@[simp] theorem State.setFB_draws (fb : Framebuffer) : (s.setFB fb).draws = s.draws := rfl
@[simp] theorem State.setFB_cfg (fb : Framebuffer) : (s.setFB fb).cfg = s.cfg := rfl

/-! ### `setRedraw` -/

@[simp] theorem State.setRedraw_V (b : Bool) : (s.setRedraw b).V = s.V := rfl
@[simp] theorem State.setRedraw_I (b : Bool) : (s.setRedraw b).I = s.I := rfl
@[simp] theorem State.setRedraw_pc (b : Bool) : (s.setRedraw b).pc = s.pc := rfl
@[simp] theorem State.setRedraw_sp (b : Bool) : (s.setRedraw b).sp = s.sp := rfl
@[simp] theorem State.setRedraw_S (b : Bool) : (s.setRedraw b).S = s.S := rfl
@[simp] theorem State.setRedraw_DT (b : Bool) : (s.setRedraw b).DT = s.DT := rfl
@[simp] theorem State.setRedraw_ST (b : Bool) : (s.setRedraw b).ST = s.ST := rfl
@[simp] theorem State.setRedraw_wait (b : Bool) : (s.setRedraw b).wait = s.wait := rfl
@[simp] theorem State.setRedraw_FB (b : Bool) : (s.setRedraw b).FB = s.FB := rfl
@[simp] theorem State.setRedraw_redraw (b : Bool) : (s.setRedraw b).redraw = b := rfl
@[simp] theorem State.setRedraw_mem (b : Bool) : (s.setRedraw b).mem = s.mem := rfl
@[simp] theorem State.setRedraw_rnd (b : Bool) : (s.setRedraw b).rnd = s.rnd := rfl
@[simp] theorem State.setRedraw_draws (b : Bool) : (s.setRedraw b).draws = s.draws := rfl
@[simp] theorem State.setRedraw_cfg (b : Bool) : (s.setRedraw b).cfg = s.cfg := rfl

/-! ### `setMem` -/

@[simp] theorem State.setMem_V (m : Memory) : (s.setMem m).V = s.V := rfl
@[simp] theorem State.setMem_I (m : Memory) : (s.setMem m).I = s.I := rfl
@[simp] theorem State.setMem_pc (m : Memory) : (s.setMem m).pc = s.pc := rfl
@[simp] theorem State.setMem_sp (m : Memory) : (s.setMem m).sp = s.sp := rfl
@[simp] theorem State.setMem_S (m : Memory) : (s.setMem m).S = s.S := rfl
@[simp] theorem State.setMem_DT (m : Memory) : (s.setMem m).DT = s.DT := rfl
@[simp] theorem State.setMem_ST (m : Memory) : (s.setMem m).ST = s.ST := rfl
@[simp] theorem State.setMem_wait (m : Memory) : (s.setMem m).wait = s.wait := rfl
@[simp] theorem State.setMem_FB (m : Memory) : (s.setMem m).FB = s.FB := rfl
@[simp] theorem State.setMem_redraw (m : Memory) : (s.setMem m).redraw = s.redraw := rfl
@[simp] theorem State.setMem_mem (m : Memory) : (s.setMem m).mem = m := rfl
@[simp] theorem State.setMem_rnd (m : Memory) : (s.setMem m).rnd = s.rnd := rfl
@[simp] theorem State.setMem_draws (m : Memory) : (s.setMem m).draws = s.draws := rfl
@[simp] theorem State.setMem_cfg (m : Memory) : (s.setMem m).cfg = s.cfg := rfl

/-! ### `setRnd` -/

@[simp] theorem State.setRnd_V (b : Byte) : (s.setRnd b).V = s.V := rfl
@[simp] theorem State.setRnd_I (b : Byte) : (s.setRnd b).I = s.I := rfl
@[simp] theorem State.setRnd_pc (b : Byte) : (s.setRnd b).pc = s.pc := rfl
@[simp] theorem State.setRnd_sp (b : Byte) : (s.setRnd b).sp = s.sp := rfl
@[simp] theorem State.setRnd_S (b : Byte) : (s.setRnd b).S = s.S := rfl
@[simp] theorem State.setRnd_DT (b : Byte) : (s.setRnd b).DT = s.DT := rfl
@[simp] theorem State.setRnd_ST (b : Byte) : (s.setRnd b).ST = s.ST := rfl
@[simp] theorem State.setRnd_wait (b : Byte) : (s.setRnd b).wait = s.wait := rfl
@[simp] theorem State.setRnd_FB (b : Byte) : (s.setRnd b).FB = s.FB := rfl
@[simp] theorem State.setRnd_redraw (b : Byte) : (s.setRnd b).redraw = s.redraw := rfl
@[simp] theorem State.setRnd_mem (b : Byte) : (s.setRnd b).mem = s.mem := rfl
@[simp] theorem State.setRnd_rnd (b : Byte) : (s.setRnd b).rnd = b := rfl
@[simp] theorem State.setRnd_draws (b : Byte) : (s.setRnd b).draws = s.draws := rfl
@[simp] theorem State.setRnd_cfg (b : Byte) : (s.setRnd b).cfg = s.cfg := rfl

/-! ### `push` -/

@[simp] theorem State.push_V (h : s.sp.val < 16) (w : Word) : (s.push h w).V = s.V := rfl
@[simp] theorem State.push_I (h : s.sp.val < 16) (w : Word) : (s.push h w).I = s.I := rfl
@[simp] theorem State.push_pc (h : s.sp.val < 16) (w : Word) : (s.push h w).pc = s.pc := rfl
@[simp] theorem State.push_sp (h : s.sp.val < 16) (w : Word) :
    (s.push h w).sp = ⟨s.sp.val + 1, by omega⟩ := rfl
@[simp] theorem State.push_S (h : s.sp.val < 16) (w : Word) :
    (s.push h w).S = s.S.set s.sp.val w := rfl
@[simp] theorem State.push_DT (h : s.sp.val < 16) (w : Word) : (s.push h w).DT = s.DT := rfl
@[simp] theorem State.push_ST (h : s.sp.val < 16) (w : Word) : (s.push h w).ST = s.ST := rfl
@[simp] theorem State.push_wait (h : s.sp.val < 16) (w : Word) : (s.push h w).wait = s.wait := rfl
@[simp] theorem State.push_FB (h : s.sp.val < 16) (w : Word) : (s.push h w).FB = s.FB := rfl
@[simp] theorem State.push_redraw (h : s.sp.val < 16) (w : Word) :
    (s.push h w).redraw = s.redraw := rfl
@[simp] theorem State.push_mem (h : s.sp.val < 16) (w : Word) : (s.push h w).mem = s.mem := rfl
@[simp] theorem State.push_rnd (h : s.sp.val < 16) (w : Word) : (s.push h w).rnd = s.rnd := rfl
@[simp] theorem State.push_draws (h : s.sp.val < 16) (w : Word) :
    (s.push h w).draws = s.draws := rfl
@[simp] theorem State.push_cfg (h : s.sp.val < 16) (w : Word) :
    (s.push h w).cfg = s.cfg := rfl

/-! ### `pop` -/

@[simp] theorem State.pop_V : s.pop.V = s.V := rfl
@[simp] theorem State.pop_I : s.pop.I = s.I := rfl
@[simp] theorem State.pop_pc : s.pop.pc = s.pc := rfl
@[simp] theorem State.pop_sp : s.pop.sp = ⟨s.sp.val - 1, by omega⟩ := rfl
@[simp] theorem State.pop_S : s.pop.S = s.S := rfl
@[simp] theorem State.pop_DT : s.pop.DT = s.DT := rfl
@[simp] theorem State.pop_ST : s.pop.ST = s.ST := rfl
@[simp] theorem State.pop_wait : s.pop.wait = s.wait := rfl
@[simp] theorem State.pop_FB : s.pop.FB = s.FB := rfl
@[simp] theorem State.pop_redraw : s.pop.redraw = s.redraw := rfl
@[simp] theorem State.pop_mem : s.pop.mem = s.mem := rfl
@[simp] theorem State.pop_rnd : s.pop.rnd = s.rnd := rfl
@[simp] theorem State.pop_draws : s.pop.draws = s.draws := rfl
@[simp] theorem State.pop_cfg : s.pop.cfg = s.cfg := rfl

/-! ### `nextRandom` -/

@[simp] theorem State.nextRandom_V : s.nextRandom.V = s.V := rfl
@[simp] theorem State.nextRandom_I : s.nextRandom.I = s.I := rfl
@[simp] theorem State.nextRandom_pc : s.nextRandom.pc = s.pc := rfl
@[simp] theorem State.nextRandom_sp : s.nextRandom.sp = s.sp := rfl
@[simp] theorem State.nextRandom_S : s.nextRandom.S = s.S := rfl
@[simp] theorem State.nextRandom_DT : s.nextRandom.DT = s.DT := rfl
@[simp] theorem State.nextRandom_ST : s.nextRandom.ST = s.ST := rfl
@[simp] theorem State.nextRandom_wait : s.nextRandom.wait = s.wait := rfl
@[simp] theorem State.nextRandom_FB : s.nextRandom.FB = s.FB := rfl
@[simp] theorem State.nextRandom_redraw : s.nextRandom.redraw = s.redraw := rfl
@[simp] theorem State.nextRandom_mem : s.nextRandom.mem = s.mem := rfl
@[simp] theorem State.nextRandom_rnd : s.nextRandom.rnd = Config.randomByte s.draws := rfl
@[simp] theorem State.nextRandom_draws : s.nextRandom.draws = s.draws + 1 := rfl
@[simp] theorem State.nextRandom_cfg : s.nextRandom.cfg = s.cfg := rfl

/-! ### Derived updates -/

@[simp] theorem State.advance_eq : s.advance = s.setPc (s.pc + 2) := rfl

@[simp] theorem State.skip_eq : s.skip = s.setPc (s.pc + 2) := rfl

/-! ### Registers -/

theorem State.getV_setV (x r : RegIdx) (b : Byte) :
    (s.setV x b).getV r = if r = x then b else s.getV r := by
  simp only [State.getV, State.setV_V]
  simp [Vector.getElem_set, Fin.ext_iff, eq_comm]

@[simp] theorem State.getV_setV_self (x : RegIdx) (b : Byte) : (s.setV x b).getV x = b := by
  simp [State.getV_setV]

@[simp] theorem State.getV_setV_ne {x r : RegIdx} (b : Byte) (h : r ≠ x) :
    (s.setV x b).getV r = s.getV r := by
  simp [State.getV_setV, h]

/-- Two states with the same register file have the same registers. -/
theorem State.getV_congr {s t : State} (h : t.V = s.V) (r : RegIdx) : t.getV r = s.getV r := by
  simp [State.getV, h]

@[simp] theorem State.setI_getV (w : Word) (r : RegIdx) : (s.setI w).getV r = s.getV r := rfl
@[simp] theorem State.setPc_getV (w : Word) (r : RegIdx) : (s.setPc w).getV r = s.getV r := rfl
@[simp] theorem State.setDT_getV (b : Byte) (r : RegIdx) : (s.setDT b).getV r = s.getV r := rfl
@[simp] theorem State.setST_getV (b : Byte) (r : RegIdx) : (s.setST b).getV r = s.getV r := rfl
@[simp] theorem State.setWait_getV (k : KeyWait) (r : RegIdx) : (s.setWait k).getV r = s.getV r := rfl
@[simp] theorem State.setFB_getV (fb : Framebuffer) (r : RegIdx) : (s.setFB fb).getV r = s.getV r := rfl
@[simp] theorem State.setRedraw_getV (b : Bool) (r : RegIdx) : (s.setRedraw b).getV r = s.getV r := rfl
@[simp] theorem State.setMem_getV (m : Memory) (r : RegIdx) : (s.setMem m).getV r = s.getV r := rfl
@[simp] theorem State.setRnd_getV (b : Byte) (r : RegIdx) : (s.setRnd b).getV r = s.getV r := rfl
@[simp] theorem State.push_getV (h : s.sp.val < 16) (w : Word) (r : RegIdx) : (s.push h w).getV r = s.getV r := rfl
@[simp] theorem State.pop_getV (r : RegIdx) : s.pop.getV r = s.getV r := rfl
@[simp] theorem State.nextRandom_getV (r : RegIdx) : s.nextRandom.getV r = s.getV r := rfl

/-! ### Stack slots -/

/-- Two states with the same stack have the same slots. -/
theorem State.slot_congr {s t : State} (h : t.S = s.S) (k : Nat) : t.slot k = s.slot k := by
  simp [State.slot, h]

/-- After a push the new top holds the pushed word. -/
@[simp] theorem State.push_slot_top (h : s.sp.val < 16) (w : Word) :
    (s.push h w).slot (s.sp.val + 1) = w := by
  simp [State.slot, h]

/-- A push changes no other slot. -/
theorem State.push_slot_ne (h : s.sp.val < 16) (w : Word) {k : Nat} (hk : 1 ≤ k)
    (hne : k ≠ s.sp.val + 1) : (s.push h w).slot k = s.slot k := by
  have : s.sp.val ≠ k - 1 := by omega
  simp [State.slot, this]

@[simp] theorem State.setV_slot (x : RegIdx) (b : Byte) (k : Nat) : (s.setV x b).slot k = s.slot k := rfl
@[simp] theorem State.setI_slot (w : Word) (k : Nat) : (s.setI w).slot k = s.slot k := rfl
@[simp] theorem State.setPc_slot (w : Word) (k : Nat) : (s.setPc w).slot k = s.slot k := rfl
@[simp] theorem State.setDT_slot (b : Byte) (k : Nat) : (s.setDT b).slot k = s.slot k := rfl
@[simp] theorem State.setST_slot (b : Byte) (k : Nat) : (s.setST b).slot k = s.slot k := rfl
@[simp] theorem State.setWait_slot (w : KeyWait) (k : Nat) : (s.setWait w).slot k = s.slot k := rfl
@[simp] theorem State.setFB_slot (fb : Framebuffer) (k : Nat) : (s.setFB fb).slot k = s.slot k := rfl
@[simp] theorem State.setRedraw_slot (b : Bool) (k : Nat) : (s.setRedraw b).slot k = s.slot k := rfl
@[simp] theorem State.setMem_slot (m : Memory) (k : Nat) : (s.setMem m).slot k = s.slot k := rfl
@[simp] theorem State.setRnd_slot (b : Byte) (k : Nat) : (s.setRnd b).slot k = s.slot k := rfl
@[simp] theorem State.pop_slot (k : Nat) : s.pop.slot k = s.slot k := rfl
@[simp] theorem State.nextRandom_slot (k : Nat) : s.nextRandom.slot k = s.slot k := rfl

/-! ### Memory bytes -/

/-- Two states with the same memory and parameters read the same bytes. -/
theorem State.byte_congr {s t : State} (h : t.mem = s.mem) (hc : t.cfg = s.cfg) (a : Nat) :
    t.byte a = s.byte a := by
  simp [State.byte, h, hc]

@[simp] theorem State.setV_byte (x : RegIdx) (b : Byte) (a : Nat) :
    (s.setV x b).byte a = s.byte a := rfl
@[simp] theorem State.setI_byte (w : Word) (a : Nat) : (s.setI w).byte a = s.byte a := rfl
@[simp] theorem State.setPc_byte (w : Word) (a : Nat) : (s.setPc w).byte a = s.byte a := rfl
@[simp] theorem State.setDT_byte (b : Byte) (a : Nat) : (s.setDT b).byte a = s.byte a := rfl
@[simp] theorem State.setST_byte (b : Byte) (a : Nat) : (s.setST b).byte a = s.byte a := rfl
@[simp] theorem State.setWait_byte (k : KeyWait) (a : Nat) : (s.setWait k).byte a = s.byte a := rfl
@[simp] theorem State.setFB_byte (fb : Framebuffer) (a : Nat) :
    (s.setFB fb).byte a = s.byte a := rfl
@[simp] theorem State.setRedraw_byte (b : Bool) (a : Nat) : (s.setRedraw b).byte a = s.byte a := rfl
@[simp] theorem State.setRnd_byte (b : Byte) (a : Nat) : (s.setRnd b).byte a = s.byte a := rfl
@[simp] theorem State.push_byte (h : s.sp.val < 16) (w : Word) (a : Nat) :
    (s.push h w).byte a = s.byte a := rfl
@[simp] theorem State.pop_byte (a : Nat) : s.pop.byte a = s.byte a := rfl
@[simp] theorem State.nextRandom_byte (a : Nat) : s.nextRandom.byte a = s.byte a := rfl

/-! ### `storeBytes` -/

@[simp] theorem State.storeBytes_V (a : Nat) (bs : List Byte) : (s.storeBytes a bs).V = s.V := rfl
@[simp] theorem State.storeBytes_I (a : Nat) (bs : List Byte) : (s.storeBytes a bs).I = s.I := rfl
@[simp] theorem State.storeBytes_pc (a : Nat) (bs : List Byte) :
    (s.storeBytes a bs).pc = s.pc := rfl
@[simp] theorem State.storeBytes_sp (a : Nat) (bs : List Byte) :
    (s.storeBytes a bs).sp = s.sp := rfl
@[simp] theorem State.storeBytes_S (a : Nat) (bs : List Byte) : (s.storeBytes a bs).S = s.S := rfl
@[simp] theorem State.storeBytes_DT (a : Nat) (bs : List Byte) :
    (s.storeBytes a bs).DT = s.DT := rfl
@[simp] theorem State.storeBytes_ST (a : Nat) (bs : List Byte) :
    (s.storeBytes a bs).ST = s.ST := rfl
@[simp] theorem State.storeBytes_wait (a : Nat) (bs : List Byte) :
    (s.storeBytes a bs).wait = s.wait := rfl
@[simp] theorem State.storeBytes_FB (a : Nat) (bs : List Byte) :
    (s.storeBytes a bs).FB = s.FB := rfl
@[simp] theorem State.storeBytes_redraw (a : Nat) (bs : List Byte) :
    (s.storeBytes a bs).redraw = s.redraw := rfl
@[simp] theorem State.storeBytes_rnd (a : Nat) (bs : List Byte) :
    (s.storeBytes a bs).rnd = s.rnd := rfl
@[simp] theorem State.storeBytes_draws (a : Nat) (bs : List Byte) :
    (s.storeBytes a bs).draws = s.draws := rfl
@[simp] theorem State.storeBytes_cfg (a : Nat) (bs : List Byte) :
    (s.storeBytes a bs).cfg = s.cfg := rfl
@[simp] theorem State.storeBytes_mem (a : Nat) (bs : List Byte) :
    (s.storeBytes a bs).mem = s.mem.storeRun s.cfg.font a bs := rfl
@[simp] theorem State.storeBytes_getV (a : Nat) (bs : List Byte) (r : RegIdx) :
    (s.storeBytes a bs).getV r = s.getV r := rfl
@[simp] theorem State.storeBytes_slot (a : Nat) (bs : List Byte) (k : Nat) :
    (s.storeBytes a bs).slot k = s.slot k := rfl

/-! ### Reset -/

/-- The reset state is that of the default parameters. -/
theorem State.reset_eq : State.reset = State.resetWith defaultParams := rfl

section
variable (p : Config.Params)
@[simp] theorem State.resetWith_pc : (State.resetWith p).pc = 0x200 := rfl
@[simp] theorem State.resetWith_sp : (State.resetWith p).sp = 0 := rfl
@[simp] theorem State.resetWith_mem : (State.resetWith p).mem = [] := rfl
@[simp] theorem State.resetWith_wait : (State.resetWith p).wait = ⟨false, 0⟩ := rfl
@[simp] theorem State.resetWith_cfg : (State.resetWith p).cfg = p := rfl
end

@[simp] theorem State.reset_pc : State.reset.pc = 0x200 := rfl
@[simp] theorem State.reset_sp : State.reset.sp = 0 := rfl
@[simp] theorem State.reset_mem : State.reset.mem = [] := rfl
@[simp] theorem State.reset_wait : State.reset.wait = ⟨false, 0⟩ := rfl

@[simp] theorem State.reset_cfg : State.reset.cfg = defaultParams := rfl

end Sys2Proof.Machine
end

