-- ==== Sys2Proof/Laws/Ops.lean ====
section
/-! SUPPORT. What each shared operation can do, said once: the bounds-checked run, the fetch, the
block transfers, the flagged write. -/

namespace Sys2Proof.Machine

variable (s : State)

/-! ### The bounds-checked run -/

/-- A run that answers a next state was in range, and the state is the one given. -/
theorem State.withRun_next {k : Nat} {t u : State} :
    s.withRun k t = .next u ↔ (k = 0 ∨ s.I.toNat + k ≤ 4096) ∧ u = t := by
  unfold State.withRun
  cases h : outOfRange s.I.toNat k with
  | none =>
    rw [outOfRange_eq_none] at h
    simp [h, eq_comm]
  | some a =>
    rw [outOfRange_eq_some] at h
    simp [raise]
    omega

/-- A run faults exactly if it leaves the address space, with the lowest address outside. -/
theorem State.withRun_fault {k : Nat} {t : State} {e : Fault} :
    s.withRun k t = .fault e ↔
      (1 ≤ k ∧ 4096 < s.I.toNat + k) ∧ e = .memOOB (max s.I.toNat 4096) := by
  unfold State.withRun
  cases h : outOfRange s.I.toNat k with
  | none =>
    rw [outOfRange_eq_none] at h
    simp
    omega
  | some a =>
    rw [outOfRange_eq_some] at h
    obtain ⟨h1, h2, rfl⟩ := h
    simp [raise, h1, h2, eq_comm]

/-- A run never refuses. -/
theorem State.withRun_refused {k : Nat} {t : State} {r : Refusal} : s.withRun k t ≠ .refused r := by
  unfold State.withRun
  cases outOfRange s.I.toNat k <;> simp [raise]

/-! ### Fetch -/

/-- The fetch answers an instruction exactly if both bytes are in range and the word decodes. -/
theorem State.fetchInstr_ok {i : Instr} :
    s.fetchInstr = .ok i ↔ s.pc.toNat ≤ 4094 ∧ decodeWord s.fetchWord = some i := by
  unfold State.fetchInstr
  cases h : outOfRange s.pc.toNat Config.instrBytes with
  | none =>
    simp only [outOfRange_eq_none, Config.instrBytes] at h
    cases hd : decodeWord s.fetchWord <;> simp
    omega
  | some a =>
    simp only [outOfRange_eq_some, Config.instrBytes] at h
    simp
    omega

/-- The errors of the fetch, in their order. -/
theorem State.fetchInstr_error {e : Fault} :
    s.fetchInstr = .error e ↔
      (4095 ≤ s.pc.toNat ∧ e = .memOOB (max s.pc.toNat 4096)) ∨
      (s.pc.toNat ≤ 4094 ∧ decodeWord s.fetchWord = none ∧ e = .unknownOpcode s.fetchWord) := by
  unfold State.fetchInstr
  cases h : outOfRange s.pc.toNat Config.instrBytes with
  | none =>
    simp only [outOfRange_eq_none, Config.instrBytes] at h
    have : s.pc.toNat ≤ 4094 := by omega
    cases hd : decodeWord s.fetchWord <;> simp [this, eq_comm] <;> omega
  | some a =>
    simp only [outOfRange_eq_some, Config.instrBytes] at h
    obtain ⟨-, h2, rfl⟩ := h
    have h3 : ¬ s.pc.toNat ≤ 4094 := by omega
    have h4 : 4095 ≤ s.pc.toNat := by omega
    simp [h3, h4, eq_comm]

/-- The fetched word as a number: the byte at the lower address is the high byte. -/
theorem State.fetchWord_toNat :
    s.fetchWord.toNat =
      (s.byte s.pc.toNat).toNat * 256 + (s.byte (s.pc.toNat + 1)).toNat :=
  wordOfBytes_toNat _ _

/-! ### Block transfers -/

/-- A block load changes nothing but the register file. -/
theorem State.loadRegs_eq (base k : Nat) :
    s.loadRegs base k = { s with V := (s.loadRegs base k).V } := by
  induction k with
  | zero => rfl
  | succ k ih =>
    rw [State.loadRegs, ih]
    rfl

/-- A block load fills the registers below `k` from consecutive bytes and keeps the others. -/
theorem State.getV_loadRegs (base k : Nat) (hk : k ≤ 16) (r : RegIdx) :
    (s.loadRegs base k).getV r = if r.val < k then s.byte (base + r.val) else s.getV r := by
  induction k with
  | zero => simp [State.loadRegs]
  | succ k ih =>
    rw [State.loadRegs, State.getV_setV, ih (by omega)]
    have hv : (Fin.ofNat 16 k).val = k := by simp; omega
    by_cases h : r.val = k
    · have : r = Fin.ofNat 16 k := Fin.ext (by omega)
      rw [if_pos this, if_pos (by omega), h]
    · have : r ≠ Fin.ofNat 16 k := fun e => h (by rw [e, hv])
      rw [if_neg this]
      by_cases h2 : r.val < k
      · rw [if_pos h2, if_pos (by omega)]
      · rw [if_neg h2, if_neg (by omega)]

@[simp] theorem State.length_firstRegs {k : Nat} (hk : k ≤ 16) : (s.firstRegs k).length = k := by
  simp [State.firstRegs]
  omega

/-- The bytes a block store writes are the registers, in order. -/
theorem State.getElem?_firstRegs {k i : Nat} (hi : i < k) (hk : k ≤ 16) :
    (s.firstRegs k)[i]? = some (s.getV ⟨i, by omega⟩) := by
  have : i < 16 := by omega
  simp [State.firstRegs, hi, State.getV, this]

/-! ### The flagged write -/

/-- A flagged write changes nothing but the register file. -/
theorem State.writeFlagged_eq (o : Config.VFOrder) (x : RegIdx) (r : Flagged) :
    s.writeFlagged o x r = { s with V := (s.writeFlagged o x r).V } := by
  cases o <;> rfl

/-- What a flagged write leaves in the registers, under either value of `VF_ORDER`. -/
theorem State.getV_writeFlagged (o : Config.VFOrder) (x : RegIdx) (r : Flagged) (q : RegIdx) :
    (s.writeFlagged o x r).getV q =
      if q = VF ∧ (x = VF → o = .flagLast) then r.flag
      else if q = x then r.result else s.getV q := by
  cases o
  · simp [State.writeFlagged, State.getV_setV]
  · simp only [State.writeFlagged, State.getV_setV]
    grind

/-- The machine's flagged write changes nothing but the register file. -/
theorem State.putFlagged_eq (x : RegIdx) (r : Flagged) :
    s.putFlagged x r = { s with V := (s.putFlagged x r).V } :=
  s.writeFlagged_eq s.cfg.vfOrder x r

/-- What the machine's flagged write leaves in the registers. -/
theorem State.getV_putFlagged (x : RegIdx) (r : Flagged) (q : RegIdx) :
    (s.putFlagged x r).getV q =
      if q = VF ∧ (x = VF → s.cfg.vfOrder = .flagLast) then r.flag
      else if q = x then r.result else s.getV q :=
  s.getV_writeFlagged s.cfg.vfOrder x r q

/-! ### Runs of bytes -/

/-- Everything a run of stores does: the bytes at `base` on are those written, every other byte is as
before. -/
theorem State.byte_storeBytes (base : Nat) (bs : List Byte)
    (hb : base + bs.length ≤ Config.memSize) (a : Nat) :
    (s.storeBytes base bs).byte a =
      if base ≤ a ∧ a < base + bs.length then (bs[a - base]?).getD 0 else s.byte a :=
  Memory.read_storeRun s.mem base bs hb a

/-- A run of stores keeps the canonical form. -/
theorem State.wf_storeBytes (h : s.mem.wf s.cfg.font = true) (base : Nat) (bs : List Byte) :
    (s.storeBytes base bs).mem.wf (s.storeBytes base bs).cfg.font = true :=
  Memory.wf_storeRun h base bs

@[simp] theorem State.length_bytesAt (base k : Nat) : (s.bytesAt base k).length = k :=
  Memory.length_loadRun s.mem base k

/-- A run of reads answers the bytes of the run, in order. -/
theorem State.getElem?_bytesAt (base k i : Nat) (h : i < k) :
    (s.bytesAt base k)[i]? = some (s.byte (base + i)) :=
  Memory.getElem?_loadRun s.mem base k i h

end Sys2Proof.Machine
end

