-- ==== Sys2Proof/Laws/PerInstr.lean ====
section
/-! SUPPORT. Statements made of every instruction, one lemma per constructor. Family
`RowOfEncoding`: the word an instruction is encoded as is a word of its own row of the opcode map
(30_encoding.md R96). -/

namespace Sys2Proof.Laws.RowOfEncoding

/-- The row of the instruction is a row of the opcode map and selects the instruction's word. -/
def Statement (i : Instr) : Prop := i.row ∈ opcodeMap ∧ i.row.selects (encodeWord i) = true

variable {i : Instr}

/-- A word of known bits under the row's mask. -/
theorem of_masked (hrow : i.row ∈ opcodeMap) (h : encodeWord i &&& i.row.mask = i.row.pattern) :
    Statement i :=
  ⟨hrow, by rw [OpcodeRow.selects, h, beq_self_eq_true]⟩

/-- Format `NNN`. -/
theorem of_NNN {op : BitVec 4} {addr : BitVec 12} (hrow : i.row ∈ opcodeMap)
    (he : encodeWord i = packNNN op addr) (hm : i.row.mask = 0xF000#16)
    (hp : packXYN op 0 0 0 = i.row.pattern) : Statement i :=
  of_masked hrow (by rw [he, hm, and_F000, opField_packNNN, hp])

/-- Format `XKK`. -/
theorem of_XKK {op : BitVec 4} {x : RegIdx} {kk : Byte} (hrow : i.row ∈ opcodeMap)
    (he : encodeWord i = packXKK op x kk) (hm : i.row.mask = 0xF000#16)
    (hp : packXYN op 0 0 0 = i.row.pattern) : Statement i :=
  of_masked hrow (by rw [he, hm, and_F000, opField_packXKK, hp])

/-- Format `XY`. -/
theorem of_XY {op : BitVec 4} {x y n : Fin 16} (hrow : i.row ∈ opcodeMap)
    (he : encodeWord i = packXYN op x y n) (hm : i.row.mask = 0xF00F#16)
    (hp : packXYN op 0 0 n = i.row.pattern) : Statement i :=
  of_masked hrow (by rw [he, hm, and_F00F, opField_packXYN, nField_packXYN, ← hp])

/-- Format `XYN`. -/
theorem of_XYN {op : BitVec 4} {x y n : Fin 16} (hrow : i.row ∈ opcodeMap)
    (he : encodeWord i = packXYN op x y n) (hm : i.row.mask = 0xF000#16)
    (hp : packXYN op 0 0 0 = i.row.pattern) : Statement i :=
  of_masked hrow (by rw [he, hm, and_F000, opField_packXYN, hp])

/-- Format `X`. -/
theorem of_X {op : BitVec 4} {x : RegIdx} {kk : Byte} (hrow : i.row ∈ opcodeMap)
    (he : encodeWord i = packXKK op x kk) (hm : i.row.mask = 0xF0FF#16)
    (hp : packXKK op 0 kk = i.row.pattern) : Statement i :=
  of_masked hrow (by rw [he, hm, and_F0FF, opField_packXKK, kkField_packXKK, hp])

theorem cls : Statement .cls := of_masked (by decide) rfl

theorem ret : Statement .ret := of_masked (by decide) rfl

theorem jp (addr : BitVec 12) : Statement (.jp addr) :=
  of_NNN (by simp [opcodeMap, Instr.row]) rfl rfl rfl

theorem call (addr : BitVec 12) : Statement (.call addr) :=
  of_NNN (by simp [opcodeMap, Instr.row]) rfl rfl rfl

theorem se (x : RegIdx) (kk : Byte) : Statement (.se x kk) :=
  of_XKK (by simp [opcodeMap, Instr.row]) rfl rfl rfl

theorem sne (x : RegIdx) (kk : Byte) : Statement (.sne x kk) :=
  of_XKK (by simp [opcodeMap, Instr.row]) rfl rfl rfl

theorem ldImm (x : RegIdx) (kk : Byte) : Statement (.ldImm x kk) :=
  of_XKK (by simp [opcodeMap, Instr.row]) rfl rfl rfl

theorem addImm (x : RegIdx) (kk : Byte) : Statement (.addImm x kk) :=
  of_XKK (by simp [opcodeMap, Instr.row]) rfl rfl rfl

theorem ldReg (x y : RegIdx) : Statement (.ldReg x y) :=
  of_XY (by simp [opcodeMap, Instr.row]) rfl rfl rfl

theorem xor (x y : RegIdx) : Statement (.xor x y) :=
  of_XY (by simp [opcodeMap, Instr.row]) rfl rfl rfl

theorem addReg (x y : RegIdx) : Statement (.addReg x y) :=
  of_XY (by simp [opcodeMap, Instr.row]) rfl rfl rfl

theorem sub (x y : RegIdx) : Statement (.sub x y) :=
  of_XY (by simp [opcodeMap, Instr.row]) rfl rfl rfl

theorem shr (x : RegIdx) : Statement (.shr x) :=
  of_XY (by simp [opcodeMap, Instr.row]) rfl rfl rfl

theorem subn (x y : RegIdx) : Statement (.subn x y) :=
  of_XY (by simp [opcodeMap, Instr.row]) rfl rfl rfl

theorem shl (x : RegIdx) : Statement (.shl x) :=
  of_XY (by simp [opcodeMap, Instr.row]) rfl rfl rfl

theorem ldI (addr : BitVec 12) : Statement (.ldI addr) :=
  of_NNN (by simp [opcodeMap, Instr.row]) rfl rfl rfl

theorem rnd (x : RegIdx) (kk : Byte) : Statement (.rnd x kk) :=
  of_XKK (by simp [opcodeMap, Instr.row]) rfl rfl rfl

theorem drw (x y : RegIdx) (n : Fin 16) : Statement (.drw x y n) :=
  of_XYN (by simp [opcodeMap, Instr.row]) rfl rfl rfl

theorem ldKey (x : RegIdx) : Statement (.ldKey x) :=
  of_X (by simp [opcodeMap, Instr.row]) rfl rfl rfl

theorem ldDT (x : RegIdx) : Statement (.ldDT x) :=
  of_X (by simp [opcodeMap, Instr.row]) rfl rfl rfl

theorem addI (x : RegIdx) : Statement (.addI x) :=
  of_X (by simp [opcodeMap, Instr.row]) rfl rfl rfl

theorem ldF (x : RegIdx) : Statement (.ldF x) :=
  of_X (by simp [opcodeMap, Instr.row]) rfl rfl rfl

theorem ldB (x : RegIdx) : Statement (.ldB x) :=
  of_X (by simp [opcodeMap, Instr.row]) rfl rfl rfl

theorem stBlock (x : RegIdx) : Statement (.stBlock x) :=
  of_X (by simp [opcodeMap, Instr.row]) rfl rfl rfl

theorem ldBlock (x : RegIdx) : Statement (.ldBlock x) :=
  of_X (by simp [opcodeMap, Instr.row]) rfl rfl rfl

end Sys2Proof.Laws.RowOfEncoding
end

