-- ==== Sys2Proof/Laws/Step.lean ====
section
/-! SUPPORT. What a step can do, said once. -/

namespace Sys2Proof.Machine

variable {s t : State}

/-- A suspended step is a no-op. -/
theorem step_of_suspended (h : s.wait.active = true) : step s = .next s := by
  simp [step, State.suspended, h]

/-- A step of a running core is the fetched instruction, or the error of the fetch. -/
theorem step_of_running (h : s.wait.active = false) :
    step s = match s.fetchInstr with
      | .error e => .fault e
      | .ok i => exec i s.advance := by
  simp only [step, State.suspended, h, raise]
  rfl

/-- A step that answers a next state was suspended, or ran the decoded instruction. -/
theorem step_next (h : step s = .next t) :
    (s.wait.active = true ∧ t = s) ∨
    (s.wait.active = false ∧ s.pc.toNat ≤ 4094 ∧
      ∃ i, decodeWord s.fetchWord = some i ∧ exec i s.advance = .next t) := by
  cases hw : s.wait.active with
  | true =>
    rw [step_of_suspended hw] at h
    cases h
    exact .inl ⟨rfl, rfl⟩
  | false =>
    rw [step_of_running hw] at h
    cases hf : s.fetchInstr with
    | error e => simp [hf] at h
    | ok i =>
      obtain ⟨hp, hd⟩ := (s.fetchInstr_ok).1 hf
      exact .inr ⟨rfl, hp, i, hd, by simpa [hf] using h⟩

/-- A step that faults was running; the fetch, the decoder or the operation raised the error. -/
theorem step_fault {e : Fault} (h : step s = .fault e) :
    s.wait.active = false ∧
    (s.fetchInstr = .error e ∨ ∃ i, s.fetchInstr = .ok i ∧ exec i s.advance = .fault e) := by
  cases hw : s.wait.active with
  | true => simp [step_of_suspended hw] at h
  | false =>
    rw [step_of_running hw] at h
    cases hf : s.fetchInstr with
    | error e' => simp_all
    | ok i => exact ⟨rfl, .inr ⟨i, rfl, by simpa [hf] using h⟩⟩

end Sys2Proof.Machine
end

