-- ==== Sys2Proof/Tests/Slice0.lean ====
section
/-! SUPPORT. The model's own tests: written lines that the form check refuses, instruction words
written out from the spec's encodings, one step each from the vectors of 95_test_vectors.md (named
T-… in the comments), and for each statement with hypotheses a state that meets them. -/

namespace Sys2Proof.Tests

open Sys2Proof.Machine

/-! ### Helpers -/

/-- The outcome is a next state, and it passes a test. -/
def okWith (r : Result) (p : State → Bool) : Bool :=
  match r with
  | .next t => p t
  | _ => false

/-- The outcome is this error. -/
def failsWith (r : Result) (e : Fault) : Bool :=
  match r with
  | .fault e' => decide (e' = e)
  | _ => false

theorem exists_of_okWith {r : Result} {p : State → Bool} (h : okWith r p = true) :
    ∃ t, r = .next t ∧ p t = true := by
  cases r with
  | next t => exact ⟨t, rfl, h⟩
  | fault e => cases h
  | refused e => cases h

theorem eq_of_failsWith {r : Result} {e : Fault} (h : failsWith r e = true) : r = .fault e := by
  cases r with
  | next t => cases h
  | fault e' => simpa [failsWith] using h
  | refused e' => cases h

/-- Set registers. -/
def regs (l : List (RegIdx × Byte)) (s : State) : State := l.foldl (fun s p => s.setV p.1 p.2) s

/-- Set memory bytes. -/
def bytes (l : List Host.Cell) (s : State) : State :=
  l.foldl (fun s p => s.storeBytes p.1 [p.2]) s

/-- Set rows of the framebuffer. -/
def rows (l : List (Fin 32 × BitVec 64)) (s : State) : State :=
  l.foldl (fun s p => s.setFB (s.FB.set p.1 p.2)) s

/-- Set the stack pointer and one slot, `k` from 1. -/
def stack (sp : Fin 17) (k : Nat) (w : Word) (s : State) : State :=
  { s with sp := sp, S := s.S.setIfInBounds (k - 1) w }

/-- The reset state, with `pc` and an instruction word there. -/
def placed (pc : Word) (w : Nat) (s : State) : State := (s.setPc pc).withFetchWord 16 w

/-- One step of an instruction word at 0x200 ends well, and the next state passes a test. -/
def runs (w : Nat) (s : State) (p : State → Bool) : Bool := okWith (step (placed 0x200 w s)) p

/-- A machine built with the other value of `VF_ORDER` and a glyph table of its own: byte `a` is `a`
(00_scope.md R7, 20_memory.md R65). -/
def otherReset : State := State.resetWith ⟨Vector.ofFn fun a => BitVec.ofNat 8 a.val, .resultLast⟩

/-! ### Lines that are no instruction, one for each check (30_encoding.md R91, R95, R105) -/

/-- `OR V1,V2` has no form here; the nearest shape, `SHR V1,V2`, is refused. -/
theorem test_line_no_such_form : assemble ⟨.SHR, [.v 1, .v 2]⟩ = .error .noSuchForm := by decide
/-- There is no `JP V0,addr`. -/
theorem test_line_no_jp_v0 : (AsmLine.mk .JP [.v 0, .lit 0x300]).wellFormed = false := by decide
theorem test_line_register_range : assemble ⟨.ADD, [.v 3, .v 16]⟩ = .error .registerRange := by decide
theorem test_line_byte_range : assemble ⟨.SE, [.v 3, .lit 256]⟩ = .error .byteRange := by decide
theorem test_line_nibble_range :
    assemble ⟨.DRW, [.v 3, .v 4, .lit 16]⟩ = .error .nibbleRange := by decide
theorem test_line_addr_range : assemble ⟨.CALL, [.lit 4096]⟩ = .error .addrRange := by decide
theorem test_line_at_the_limits :
    assemble ⟨.DRW, [.v 15, .v 0, .lit 15]⟩ = .ok (.drw 15 0 15) ∧
    assemble ⟨.LD, [.idx, .lit 4095]⟩ = .ok (.ldI 0xFFF) ∧
    assemble ⟨.LD, [.v 15, .lit 255]⟩ = .ok (.ldImm 15 255) := by decide

/-! ### Decoding: the table of 95_test_vectors.md B1, the words bit by bit -/

theorem test_decode_family0 :
    decodeWord 0b0000_0000_1110_0000 = some .cls ∧
    decodeWord 0b0000_0000_1110_1110 = some .ret := by decide
theorem test_decode_nnn :
    decodeWord 0b1010_0010_1111_0000 = some (.ldI 0x2F0) ∧
    decodeWord 0b0001_1010_1011_1100 = some (.jp 0xABC) ∧
    decodeWord 0b0010_1101_1110_1111 = some (.call 0xDEF) := by decide
theorem test_decode_xkk :
    decodeWord 0b0011_1010_0100_0010 = some (.se 10 0x42) ∧
    decodeWord 0b0100_1011_1001_1001 = some (.sne 11 0x99) ∧
    decodeWord 0b0110_1100_0000_0001 = some (.ldImm 12 0x01) ∧
    decodeWord 0b0111_1101_1111_1111 = some (.addImm 13 0xFF) ∧
    decodeWord 0b1100_0111_1111_0000 = some (.rnd 7 0xF0) := by decide
theorem test_decode_family8 :
    decodeWord 0b1000_1010_1011_0000 = some (.ldReg 10 11) ∧
    decodeWord 0b1000_1010_1011_0011 = some (.xor 10 11) ∧
    decodeWord 0b1000_1010_1011_0100 = some (.addReg 10 11) ∧
    decodeWord 0b1000_1010_1011_0101 = some (.sub 10 11) ∧
    decodeWord 0b1000_1010_1011_0110 = some (.shr 10) ∧
    decodeWord 0b1000_1010_1011_0111 = some (.subn 10 11) ∧
    decodeWord 0b1000_1010_1011_1110 = some (.shl 10) := by decide
theorem test_decode_drw :
    decodeWord 0b1101_0000_0000_0101 = some (.drw 0 0 5) ∧
    decodeWord 0b1101_0001_0010_1111 = some (.drw 1 2 15) ∧
    decodeWord 0b1101_1010_1011_0000 = some (.drw 10 11 0) := by decide
theorem test_decode_familyF :
    decodeWord 0b1111_1110_0000_1010 = some (.ldKey 14) ∧
    decodeWord 0b1111_1001_0001_0101 = some (.ldDT 9) ∧
    decodeWord 0b1111_0010_0001_1110 = some (.addI 2) ∧
    decodeWord 0b1111_1100_0010_1001 = some (.ldF 12) ∧
    decodeWord 0b1111_0000_0011_0011 = some (.ldB 0) ∧
    decodeWord 0b1111_0111_0101_0101 = some (.stBlock 7) ∧
    decodeWord 0b1111_1111_0110_0101 = some (.ldBlock 15) := by decide
/-- The unknown words of B1: the operations of the family's other members are absent. -/
theorem test_decode_unknown :
    ([0x0000, 0x00E1, 0x00FF, 0x01E0, 0x0FEE, 0x5AB0, 0x8AB1, 0x8AB2, 0x8AB8, 0x8AB9, 0x8ABA, 0x8ABB] ++
      [0x8ABC, 0x8ABD, 0x8ABF, 0x9AB0, 0xB123, 0xE19E, 0xE1A1, 0xF107, 0xF118, 0xF10B, 0xF1FF, 0xFFFF]
      : List Word).all (fun w => (decodeWord w).isNone) = true := by decide
/-- The high byte stands first in memory, and the bytes after the instruction are left. -/
theorem test_decode_bytes :
    decode [0xA2, 0xF0, 0x12] = .ok (.ldI 0x2F0, [0x12]) ∧
    decode [0xA2] = .error .truncated ∧
    decode [0x00, 0x00] = .error (.unknownOpcode 0x0000) := by decide
theorem test_decode_table_word :
    decodeTableWord 16 0x00EE = some .ret ∧ decodeTableWord 16 0x8AB6 = some (.shr 10) ∧
    decodeTableWord 16 0xE19E = none := by decide

/-! ### One step of each instruction (95_test_vectors.md B2 to B7) -/

/-- T-DR3. -/
theorem test_cls : runs 0x00E0 (regs [(15, 1)] (rows [(5, 0x20)] State.reset))
    (fun t => t.FB == Framebuffer.blank && t.redraw && t.getV VF == 1) = true := by decide
/-- T-CF10, T-CF11. -/
theorem test_ret :
    okWith (step (placed 0x300 0x00EE (stack 16 16 0x0ABC (stack 16 15 0x0111 State.reset))))
      (fun t => t.pc == 0x0ABC && t.sp == 15) = true ∧
    okWith (step (placed 0x300 0x00EE (stack 1 1 0x1000 State.reset)))
      (fun t => t.pc == 0x1000 && t.sp == 0) = true := by decide
/-- T-CF9. -/
theorem test_ret_empty : failsWith (step (placed 0x200 0x00EE State.reset)) .stackUnderflow = true := by
  decide
/-- T-CF3, T-CF2. -/
theorem test_jp : runs 0x1FFF State.reset (fun t => t.pc == 0x0FFF) = true ∧
    runs 0x1200 State.reset (fun t => t.pc == 0x0200) = true := by decide
/-- T-CF6, T-CF20. -/
theorem test_call :
    okWith (step (placed 0x400 0x2ABC (stack 15 1 0 State.reset)))
      (fun t => t.pc == 0x0ABC && t.sp == 16 && t.slot 16 == 0x0402) = true ∧
    okWith (step (placed 0xFFE 0x2FFE State.reset))
      (fun t => t.pc == 0x0FFE && t.sp == 1 && t.slot 1 == 0x1000) = true := by decide
/-- T-CF7, T-ER23. -/
theorem test_call_full :
    failsWith (step (placed 0x400 0x2ABC (stack 16 16 0x222 State.reset))) .stackOverflow = true ∧
    failsWith (step (placed 0x200 0x2300 ((stack 16 1 0 State.reset).setI 0x2000)))
      .stackOverflow = true := by decide
/-- T-CF12, T-CF13, T-CF17. -/
theorem test_se : runs 0x332A (regs [(3, 0x2A)] State.reset) (fun t => t.pc == 0x204) = true ∧
    runs 0x332A (regs [(3, 0x2B)] State.reset) (fun t => t.pc == 0x202) = true ∧
    okWith (step (placed 0xFFE 0x3000 State.reset)) (fun t => t.pc == 0x1002) = true := by decide
/-- T-CF14, T-CF15. -/
theorem test_sne : runs 0x432A (regs [(3, 0x2A)] State.reset) (fun t => t.pc == 0x202) = true ∧
    runs 0x432A (regs [(3, 0x2B)] State.reset) (fun t => t.pc == 0x204) = true := by decide
/-- T-AL1, T-AL2. -/
theorem test_ld_imm : runs 0x6A7F State.reset (fun t => t.getV 10 == 0x7F && t.pc == 0x202) = true ∧
    runs 0x6FAB State.reset (fun t => t.getV VF == 0xAB) = true := by decide
/-- T-AL3: the destination is the first operand. -/
theorem test_ld_reg : runs 0x8120 (regs [(2, 0x33)] State.reset)
    (fun t => t.getV 1 == 0x33 && t.getV 2 == 0x33) = true := by decide
/-- T-AL5, T-AL6. -/
theorem test_add_imm : runs 0x7103 (regs [(1, 0xFE)] State.reset)
      (fun t => t.getV 1 == 0x01 && t.getV VF == 0) = true ∧
    runs 0x7101 (regs [(1, 0xFF)] State.reset) (fun t => t.getV 1 == 0 && t.getV VF == 0) = true := by
  decide
/-- T-AL8, T-VF15. -/
theorem test_xor : runs 0x8123 (regs [(1, 0xF0), (2, 0x3C)] State.reset)
      (fun t => t.getV 1 == 0xCC && t.getV 2 == 0x3C) = true ∧
    runs 0x8F23 (regs [(15, 0x07), (2, 0x03)] State.reset) (fun t => t.getV VF == 0x04) = true := by
  decide
/-- T-AL13, T-AL11. -/
theorem test_add_reg : runs 0x8124 (regs [(1, 0xFF), (2, 0x01)] State.reset)
      (fun t => t.getV 1 == 0 && t.getV VF == 1) = true ∧
    runs 0x8124 (regs [(1, 0x80), (2, 0x7F), (15, 1)] State.reset)
      (fun t => t.getV 1 == 0xFF && t.getV VF == 0) = true := by decide
/-- T-VF1, T-VF4: `VF` as an operand, and as the destination. -/
theorem test_add_reg_vf : runs 0x81F4 (regs [(1, 5), (15, 3)] State.reset)
      (fun t => t.getV 1 == 8 && t.getV VF == 0) = true ∧
    runs 0x8F24 (regs [(15, 0xF0), (2, 0x20)] State.reset) (fun t => t.getV VF == 1) = true := by
  decide
/-- T-AL15, T-AL17. -/
theorem test_sub : runs 0x8125 (regs [(1, 0x10), (2, 0x20), (15, 1)] State.reset)
      (fun t => t.getV 1 == 0xF0 && t.getV VF == 0) = true ∧
    runs 0x8125 (regs [(1, 0x33), (2, 0x33)] State.reset)
      (fun t => t.getV 1 == 0 && t.getV VF == 1) = true := by decide
/-- T-VF3, T-VF6. -/
theorem test_sub_vf : runs 0x81F5 (regs [(1, 1), (15, 3)] State.reset)
      (fun t => t.getV 1 == 0xFE && t.getV VF == 0) = true ∧
    runs 0x8F25 (regs [(15, 0x10), (2, 0x20)] State.reset) (fun t => t.getV VF == 0) = true := by
  decide
/-- T-AL19, T-VF14. -/
theorem test_subn : runs 0x8127 (regs [(1, 0x10), (2, 0x30)] State.reset)
      (fun t => t.getV 1 == 0x20 && t.getV VF == 1 && t.getV 2 == 0x30) = true ∧
    runs 0x8F27 (regs [(15, 7), (2, 9)] State.reset) (fun t => t.getV VF == 1) = true := by decide
/-- T-AL22, T-VF8. -/
theorem test_shr : runs 0x8126 (regs [(1, 0x05), (2, 0xEE)] State.reset)
      (fun t => t.getV 1 == 0x02 && t.getV VF == 1 && t.getV 2 == 0xEE) = true ∧
    runs 0x8F06 (regs [(15, 0x06)] State.reset) (fun t => t.getV VF == 0) = true := by decide
/-- T-AL25, T-VF10. -/
theorem test_shl : runs 0x812E (regs [(1, 0x81), (2, 0xEE)] State.reset)
      (fun t => t.getV 1 == 0x02 && t.getV VF == 1 && t.getV 2 == 0xEE) = true ∧
    runs 0x8F0E (regs [(15, 0x81)] State.reset) (fun t => t.getV VF == 1) = true := by decide
/-- T-AL28, T-AL29. -/
theorem test_rnd :
    okWith (stepWith 0xB7 (placed 0x200 0xC30F State.reset)) (fun t => t.getV 3 == 0x07) = true ∧
    okWith (stepWith 0xFF (placed 0x200 0xC300 (regs [(3, 0x55)] State.reset)))
      (fun t => t.getV 3 == 0 && t.pc == 0x202) = true := by decide
/-- T-IM2. -/
theorem test_ld_i : runs 0xAFFF (State.reset.setI 0x1234) (fun t => t.I == 0x0FFF) = true := by decide
/-- T-IM4, T-IM6. -/
theorem test_add_i : runs 0xF21E (regs [(2, 1)] (State.reset.setI 0x0FFF))
      (fun t => t.I == 0x1000 && t.getV VF == 0) = true ∧
    runs 0xF21E (regs [(2, 0xFF)] (State.reset.setI 0xFF80)) (fun t => t.I == 0x007F) = true := by
  decide
/-- T-IM26, T-IM28. -/
theorem test_ld_f : runs 0xF329 (regs [(3, 0x0F)] State.reset) (fun t => t.I == 0x004B) = true ∧
    runs 0xF329 (regs [(3, 0xFF)] State.reset) (fun t => t.I == 0x04FB) = true := by decide
/-- T-IM19, T-IM21. -/
theorem test_ld_b : runs 0xF433 (regs [(4, 0x9C)] (State.reset.setI 0x300))
      (fun t => t.bytesAt 0x300 4 == [1, 5, 6, 0] && t.I == 0x300) = true ∧
    runs 0xF433 (regs [(4, 7)] (bytes [(0x300, 9), (0x301, 9), (0x302, 9)] (State.reset.setI 0x300)))
      (fun t => t.bytesAt 0x300 3 == [0, 0, 7]) = true := by decide
/-- T-IM24. -/
theorem test_ld_b_oob : failsWith (step (placed 0x200 0xF433 (State.reset.setI 0xFFE)))
    (.memOOB 4096) = true := by decide
/-- T-IM7, T-IM14. -/
theorem test_st_block :
    runs 0xF255 (regs [(0, 0x11), (1, 0x22), (2, 0x33), (3, 0x44)] (State.reset.setI 0x300))
      (fun t => t.bytesAt 0x300 4 == [0x11, 0x22, 0x33, 0] && t.I == 0x300) = true ∧
    runs 0xF055 (regs [(0, 0xAA)] State.reset) (fun t => t.bytesAt 0 2 == [0xAA, 0x90]) = true := by
  decide
/-- T-IM10, T-IM13. -/
theorem test_st_block_oob :
    failsWith (step (placed 0x200 0xF155 (State.reset.setI 0xFFF))) (.memOOB 4096) = true ∧
    failsWith (step (placed 0x200 0xF055 (State.reset.setI 0x2000))) (.memOOB 8192) = true := by decide
/-- T-IM15, T-IM16. -/
theorem test_ld_block :
    runs 0xF165 (regs [(2, 0x99)]
        (bytes [(0x300, 0xAA), (0x301, 0xBB), (0x302, 0xCC)] (State.reset.setI 0x300)))
      (fun t => t.getV 0 == 0xAA && t.getV 1 == 0xBB && t.getV 2 == 0x99) = true ∧
    runs 0xF465 State.reset (fun t => t.V.toList.take 6 == [0xF0, 0x90, 0x90, 0x90, 0xF0, 0]) = true := by
  decide
/-- T-IM17. -/
theorem test_ld_block_oob :
    failsWith (step (placed 0x200 0xF165 (State.reset.setI 0xFFF))) (.memOOB 4096) = true := by decide
/-- T-DR4: columns wrap. -/
theorem test_drw_wrap : runs 0xD121 (regs [(1, 0x3C)] (bytes [(0x300, 0xFF)] (State.reset.setI 0x300)))
    (fun t => Framebuffer.row t.FB 0 == 0xF00000000000000F && t.getV VF == 0 && t.redraw) = true := by
  decide
/-- T-DR12 and the clipping of T-DR13. -/
theorem test_drw_collision :
    runs 0xD123 (bytes [(0x300, 0x80), (0x301, 0x80), (0x302, 0x80)]
        (rows [(0, 1)] (State.reset.setI 0x300)))
      (fun t => t.FB.toList.take 4 == [0, 1, 1, 0] && t.getV VF == 1) = true ∧
    runs 0xD122 (regs [(2, 0x1F)] (bytes [(0x301, 0x80)] (rows [(0, 1)] (State.reset.setI 0x300))))
      (fun t => Framebuffer.row t.FB 0 == 1 && t.getV VF == 0) = true := by decide
/-- T-DR15, T-DR17. -/
theorem test_drw_range :
    runs 0xD120 (regs [(15, 1)] (State.reset.setI 0x2000)) (fun t => t.getV VF == 0 && t.redraw) = true ∧
    failsWith (step (placed 0x200 0xD002 (State.reset.setI 0xFFF))) (.memOOB 4096) = true := by decide
/-- T-DR20. -/
theorem test_drw_vf :
    runs 0xDF11 (regs [(15, 5), (1, 2)] (bytes [(0x300, 0x80)] (State.reset.setI 0x300)))
      (fun t => Framebuffer.row t.FB 2 == 0x20 && t.getV VF == 0) = true := by decide
/-- T-KT1. -/
theorem test_ld_key : runs 0xF50A (regs [(5, 0x77)] State.reset)
    (fun t => t.wait == ⟨true, 5⟩ && t.pc == 0x202 && t.getV 5 == 0x77) = true := by decide
/-- T-KT6. -/
theorem test_ld_dt : runs 0xF315 (regs [(3, 0x3C)] State.reset)
    (fun t => t.DT == 0x3C && t.ST == 0) = true := by decide

/-! ### The step cycle and the host (95_test_vectors.md B7 to B9) -/

/-- T-KT3, T-KT4: a suspended step fetches nothing. -/
theorem test_suspended :
    okWith (step ((State.reset.setPc 0xFFF).setWait ⟨true, 5⟩)) (fun t => t.pc == 0xFFF) = true ∧
    okWith (step ((placed 0x202 0xFFFF State.reset).setWait ⟨true, 5⟩)) (fun t => t.pc == 0x202) = true := by
  decide
/-- T-ER1 to T-ER5, and the fetch check before the stack check. -/
theorem test_fetch_errors :
    failsWith (step State.reset) (.unknownOpcode 0x0000) = true ∧
    failsWith (step (State.reset.setPc 0xFFE)) (.unknownOpcode 0x0000) = true ∧
    failsWith (step (State.reset.setPc 0xFFF)) (.memOOB 4096) = true ∧
    failsWith (step (stack 16 1 0 (State.reset.setPc 0x1000))) (.memOOB 4096) = true ∧
    failsWith (step (State.reset.setPc 0x1002)) (.memOOB 4098) = true := by decide
/-- T-ER6: an odd `pc`. -/
theorem test_odd_pc :
    okWith (step ((bytes [(0x201, 0x60), (0x202, 0x2A)] State.reset).setPc 0x201))
      (fun t => t.getV 0 == 0x2A && t.pc == 0x203) = true := by decide
/-- T-ER8, T-ER22. -/
theorem test_unknown_words :
    failsWith (step (placed 0x200 0x01E0 State.reset)) (.unknownOpcode 0x01E0) = true ∧
    failsWith (step (placed 0x200 0xFFFF State.reset)) (.unknownOpcode 0xFFFF) = true := by decide
/-- T-HO4, T-HO6: a load resets everything, also while waiting. -/
theorem test_load :
    okWith (load [0x12, 0x34, 0x56]
        (bytes [(0x10, 0xAA), (0x300, 0x77)] (regs [(1, 5)] (State.reset.setWait ⟨true, 7⟩))))
      (fun t => t.mem == [(0x200, 0x12), (0x201, 0x34), (0x202, 0x56)] && t.byte 0x10 == 0x10 &&
        t.getV 1 == 0 && t.wait == ⟨false, 0⟩ && t.pc == 0x200) = true := by decide
/-- T-HO7, T-HO9. -/
theorem test_deliver_key :
    (deliverKey 0xC (State.reset.setWait ⟨true, 5⟩)).getV 5 = 0x0C ∧
    (deliverKey 0xC (State.reset.setWait ⟨true, 5⟩)).wait.active = false ∧
    (deliverKey 0x3 (regs [(0, 0x55)] State.reset)).getV 0 = 0x55 := by decide
/-- T-HO11, T-HO12, T-HO13. -/
theorem test_timers :
    delayTimer (setDelayTimer 0x3C State.reset) = 0x3C ∧
    soundTimer (setSoundTimer 0x05 State.reset) = 0x05 ∧
    delayTimer (tick (setDelayTimer 1 State.reset)) = 0 ∧
    soundTimer (tick (setDelayTimer 1 State.reset)) = 0 := by decide
/-- T-HO14. -/
theorem test_redraw :
    redrawPending (State.reset.setRedraw true) = true ∧
    redrawPending (clearRedraw (State.reset.setRedraw true)) = false := by decide
/-- T-VF5, T-VF7, T-VF9, T-VF11: the result survives in `VF` under `result_last`. -/
theorem test_result_last :
    runs 0x8F24 (regs [(15, 0xF0), (2, 0x20)] otherReset) (fun t => t.getV VF == 0x10) = true ∧
    runs 0x8F25 (regs [(15, 0x10), (2, 0x20)] otherReset) (fun t => t.getV VF == 0xF0) = true ∧
    runs 0x8F06 (regs [(15, 0x06)] otherReset) (fun t => t.getV VF == 0x03) = true ∧
    runs 0x8F0E (regs [(15, 0x81)] otherReset) (fun t => t.getV VF == 0x02) = true := by decide
/-- A5 and R64 with another `FONT`: `LD F,V3` and `LD V4,[I]` of digit 10 get bytes 50 to 54 of it, and
a load over a damaged table seeds it again. -/
theorem test_other_font :
    runs 0xF329 (regs [(3, 10)] otherReset) (fun t => t.bytesAt t.I.toNat 5 == [50, 51, 52, 53, 54]) =
      true ∧
    runs 0xF465 (otherReset.setI 50) (fun t => t.getV 0 == 50 && t.getV 4 == 54) = true ∧
    okWith (load [0x12] (bytes [(0, 0xAA), (79, 0xBB)] otherReset))
      (fun t => t.bytesAt 78 3 == [78, 79, 0] && t.byte 0 == 0 && t.byte 0x200 == 0x12) = true := by
  decide
/-- The glyph constants of R66 at the places A2 names. -/
theorem test_reset_glyphs :
    State.reset.byte 0 = 0xF0 ∧ State.reset.byte 5 = 0x20 ∧ State.reset.byte 79 = 0x80 ∧
    State.reset.byte 80 = 0 := by decide

/-! ### Witnesses: for each statement with hypotheses, states and operands that meet them -/

theorem witness_SourceWordsDecode :
    (0xAFFF#16).toNat / 4096 = 0xA ∧ (0xDFFF#16).toNat / 4096 = 0xD := by decide
theorem witness_EncodeOfDecodeIsCanonical :
    decodeWord 0x8AB6 = some (.shr 10) ∧ decodeWord 0x00EE = some .ret := by decide
theorem witness_DecodedOperandsAreTheFields : decodeWord 0xDFFF = some (.drw 15 15 15) := by decide
/-- The first and the last place a fetch can be made at. -/
theorem witness_StepRunsTheDecodedInstr :
    (placed 0x000 0x6A7F State.reset).wait.active = false ∧
    (placed 0x000 0x6A7F State.reset).pc.toNat + 1 ≤ 4095 ∧
    decodeWord (BitVec.ofNat 16 (((placed 0x000 0x6A7F State.reset).byte 0).toNat * 256 +
      ((placed 0x000 0x6A7F State.reset).byte 1).toNat)) = some (.ldImm 10 0x7F) ∧
    (placed 0xFFE 0x6A7F State.reset).pc.toNat = 4094 ∧
    decodeWord (BitVec.ofNat 16 (((placed 0xFFE 0x6A7F State.reset).byte 4094).toNat * 256 +
      ((placed 0xFFE 0x6A7F State.reset).byte 4095).toNat)) = some (.ldImm 10 0x7F) := by decide
theorem witness_SuspensionIsTheKeyWait :
    (State.reset.setWait ⟨true, 5⟩).wait.active = true ∧
    runs 0xF50A State.reset (fun t => t.wait.active) = true ∧
    (transact (.deliverKey 3) (State.reset.setWait ⟨true, 5⟩)).state.wait.active = false ∧
    (transact (.load [0x12, 0]) (State.reset.setWait ⟨true, 5⟩)).state.wait.active = false := by decide
theorem witness_FetchOutOfRangeRaisesMemOOB :
    (State.reset.setPc 4095).wait.active = false ∧ (State.reset.setPc 4095).pc.toNat = 4095 ∧
    4096 ≤ (State.reset.setPc 4096).pc.toNat ∧ (State.reset.setPc 4094).pc.toNat ≤ 4094 := by decide
theorem witness_UnknownWordRaisesUnknownOpcode :
    (placed 0xFFE 0xE19E State.reset).wait.active = false ∧
    (placed 0xFFE 0xE19E State.reset).pc.toNat + 1 ≤ 4095 ∧
    (0xE19E#16).toNat = ((placed 0xFFE 0xE19E State.reset).byte 4094).toNat * 256 +
      ((placed 0xFFE 0xE19E State.reset).byte 4095).toNat ∧
    ∀ r ∈ opcodeMap, 0xE19E#16 &&& r.mask ≠ r.pattern := by decide
/-- A step that keeps a set redraw flag, and steps that change `DT`, the latch and the screen. -/
theorem witness_StepNeverTouchesForeignParts :
    runs 0x1200 (State.reset.setRedraw true) (fun t => t.redraw) = true ∧
    runs 0xF315 (regs [(3, 9)] State.reset) (fun t => t.DT != State.reset.DT) = true ∧
    runs 0xF50A State.reset (fun t => t.wait != State.reset.wait) = true ∧
    runs 0x00E0 (rows [(5, 0x20)] State.reset) (fun t => t.FB != (rows [(5, 0x20)] State.reset).FB) =
      true ∧
    runs 0xD005 State.reset (fun t => t.FB != State.reset.FB) = true := by decide
theorem witness_OperationsRaiseExactlyTheirErrors :
    opError (.call 0x300) (stack 16 1 0 State.reset) = some .stackOverflow ∧
    opError (.call 0x300) (stack 15 1 0 State.reset) = none ∧
    opError .ret State.reset = some .stackUnderflow ∧
    opError (.ldB 0) (State.reset.setI 0xFFE) = some (.memOOB 4096) ∧
    opError (.ldB 0) (State.reset.setI 0xFFD) = none := by decide
theorem witness_ErrorsLeaveTheStateUnchanged :
    (transact (.step 0) State.reset).reply = .error (.unknownOpcode 0) := by decide
theorem witness_ErrorsRecurUntilALoad :
    (transact (.step 0) (State.reset.setPc 0xFFF)).reply = .error (.memOOB 4096) ∧
    ∀ bs, Transaction.load bs ∈
        [.setDelayTimer 3, .deliverKey 5, .step 7, .load (List.replicate 3585 0)] →
      3584 < bs.length :=
  ⟨by decide, by
    intro bs h
    simp only [List.mem_cons, List.not_mem_nil, reduceCtorEq, false_or, or_false,
      Transaction.load.injEq] at h
    rw [h, List.length_replicate]
    decide⟩
theorem witness_OnlyRndDependsOnTheRandomByte :
    ∀ x kk, State.reset.fetchInstr ≠ .ok (.rnd x kk) := by
  intro x kk h
  have : decodeWord State.reset.fetchWord = none := by decide
  rw [State.fetchInstr_ok, this] at h
  exact absurd h.2 (by simp)
/-- The invariant at a state with a full stack, and a step from it. -/
theorem witness_StepKeepsTheInvariant :
    Inv (stack 16 16 0x1000 (placed 0xFFC 0x4001 State.reset)) ∧
    ∃ t, step (stack 16 16 0x1000 (placed 0xFFC 0x4001 State.reset)) = .next t ∧
      (t.pc == 0x1000) = true := by
  refine ⟨⟨by decide, ?_, by decide⟩, exists_of_okWith (by decide)⟩
  intro k h1 h2
  have h3 : k < 17 := Nat.lt_succ_of_le h2
  have : ∀ j : Fin 17, ((stack 16 16 0x1000 (placed 0xFFC 0x4001 State.reset)).slot j.val).toNat ≤
      4096 := by decide
  exact this ⟨k, h3⟩
theorem witness_ReachableStatesHaveTheInvariant :
    Reachable (transact (.deliverKey 3) State.reset).state := .transact _ (.reset defaultParams)
theorem witness_CanonicalMemoryIsExtensional :
    Memory.wf font [(0, 1), (4095, 7)] = true ∧
    ∀ a, a < 4096 → Memory.read font [(0, 1), (4095, 7)] a = Memory.read font [(0, 1), (4095, 7)] a :=
  ⟨by decide, fun _ _ => rfl⟩
/-- A completed `DRW`: register 3 and the parts but the screen and the redraw flag are in frame. -/
theorem witness_OnlyListedStateIsWritten :
    (∃ t, exec (.drw 1 2 5) State.reset = .next t ∧ t.redraw = true) ∧
    (3 : RegIdx) ∉ (Instr.drw 1 2 5).regsWritten ∧ Part.mem ∉ (Instr.drw 1 2 5).partsWritten :=
  ⟨exists_of_okWith (by decide), by decide, by decide⟩
/-- Other contents in registers 4 to 15, which `LD [I],V3` does not read. -/
theorem witness_OnlyListedRegistersAreRead :
    ∀ r ∈ (Instr.stBlock 3).regsRead,
      (regs [(4, 7), (15, 9)] State.reset).getV r = State.reset.getV r := by decide
theorem witness_PcAfterEveryStep :
    (State.reset.setWait ⟨true, 5⟩).wait.active = true ∧
    (transact (.step 0) State.reset).reply = .error (.unknownOpcode 0) ∧
    (placed 0x200 0x00E0 State.reset).wait.active = false ∧
    (placed 0x200 0x00E0 State.reset).fetchInstr = .ok .cls ∧
    (transact (.step 0) (placed 0x200 0x00E0 State.reset)).reply = .ok := by
  refine ⟨by decide, by decide, by decide, ?_, by decide⟩
  rw [State.fetchInstr_ok]
  decide
/-- One live slot, and other contents in slot 2. -/
theorem witness_DeadStackSlotsAreUnobservable :
    ∀ k, 1 ≤ k → k ≤ (stack 1 1 0x204 State.reset).sp.val →
      (stack 1 2 0x999 (stack 1 1 0x204 State.reset)).slot k =
        (stack 1 1 0x204 State.reset).slot k := by
  intro k h1 h2
  have h3 : k ≤ 1 := h2
  obtain rfl : k = 1 := by omega
  decide
theorem witness_CallPushesTheReturnAddress :
    (stack 15 1 0 State.reset).sp.val < 16 ∧ (stack 16 1 0 State.reset).sp.val = 16 ∧
    (∀ k, k = 1 → 1 ≤ k ∧ k ≠ (stack 15 1 0 State.reset).sp.val + 1) := by
  refine ⟨by decide, by decide, ?_⟩
  rintro k rfl
  decide
theorem witness_ReturnPopsTheTopSlot :
    1 ≤ (stack 1 1 0x204 State.reset).sp.val ∧ 1 ≤ (stack 16 1 0x204 State.reset).sp.val ∧
    State.reset.sp.val = 0 := by decide
/-- The state `u` of the return is the one after the call, with a register and `pc` changed. -/
theorem witness_ReturnUndoesCall :
    ∃ t u : State, exec (.call 0x300) State.reset = .next t ∧ u.sp = t.sp ∧ u.S = t.S ∧
      u.getV 1 ≠ t.getV 1 ∧ u.pc ≠ t.pc := by
  obtain ⟨t, h, ht⟩ := exists_of_okWith (r := exec (.call 0x300) State.reset)
    (p := fun t => t.getV 1 == 0 && t.pc == 0x300) (by decide)
  simp only [Bool.and_eq_true, beq_iff_eq] at ht
  exact ⟨t, (t.setV 1 7).setPc 0x340, h, rfl, rfl, by simp [ht.1], by simp [ht.2]⟩
/-- Self-jumps at the entry point and at the last place a fetch can be made at. -/
theorem witness_SelfJumpIsAFixedPoint :
    (placed 0x200 0x1200 State.reset).wait.active = false ∧
    (placed 0x200 0x1200 State.reset).pc.toNat = 0x200 ∧
    ((placed 0x200 0x1200 State.reset).byte 0x200).toNat * 256 +
      ((placed 0x200 0x1200 State.reset).byte 0x201).toNat = 0x1000 + 0x200 ∧
    (placed 0xFFE 0x1FFE State.reset).pc.toNat = 4094 ∧
    ((placed 0xFFE 0x1FFE State.reset).byte 4094).toNat * 256 +
      ((placed 0xFFE 0x1FFE State.reset).byte 4095).toNat = 0x1000 + 4094 := by decide
/-- `AddSetsCarry`, `SubtractionsSetNotBorrow`, `ShiftsSetTheBitShiftedOut`: a destination other than
`VF`, up to register 14. -/
theorem witness_destination_not_VF : (0 : RegIdx) ≠ VF ∧ (14 : RegIdx) ≠ VF := by decide
theorem witness_FlagSurvivesInVF : State.reset.cfg.vfOrder = .flagLast := rfl
theorem witness_ResultSurvivesInVF : otherReset.cfg.vfOrder = .resultLast := rfl
/-- An instruction whose destination is not `VF`, and one that writes no flag. -/
theorem witness_VFOrderMattersOnlyForVF_exec :
    (∀ y, Instr.addReg 14 15 ≠ .addReg VF y ∧ Instr.addReg 14 15 ≠ .sub VF y ∧
      Instr.addReg 14 15 ≠ .subn VF y) ∧
    Instr.addReg 14 15 ≠ .shr VF ∧ Instr.addReg 14 15 ≠ .shl VF ∧
    (∀ y, Instr.xor 15 3 ≠ .addReg VF y) := by decide
theorem witness_VFOrderMattersOnlyForVF : (14 : RegIdx) ≠ VF ∧ (3 : RegIdx) ≠ 14 ∧ (3 : RegIdx) ≠ VF := by
  decide
/-- The last run of 16 bytes in memory, the first beyond it, and an address no byte goes to. -/
theorem witness_BlockStoreIsInclusive :
    (State.reset.setI 0xFF0).I.toNat + (15 : RegIdx).val ≤ 4095 ∧
    4095 < (State.reset.setI 0xFF1).I.toNat + (15 : RegIdx).val ∧
    ∀ i, i ≤ (15 : RegIdx).val → 0xFEF ≠ (State.reset.setI 0xFF0).dataAddr i := by
  refine ⟨by decide, by decide, ?_⟩
  intro i _ h
  have : 0xFEF = 0xFF0 + i := h
  omega
theorem witness_BlockLoadIsInclusive :
    (State.reset.setI 0xFF0).I.toNat + (15 : RegIdx).val ≤ 4095 ∧
    4095 < (State.reset.setI 0xFF1).I.toNat + (15 : RegIdx).val := by decide
theorem witness_DecimalStoreWritesThreeDigits :
    (State.reset.setI 0xFFD).I.toNat + 2 ≤ 4095 ∧ 4095 < (State.reset.setI 0xFFE).I.toNat + 2 ∧
    ∀ i, i ≤ 2 → 0xFFC ≠ (State.reset.setI 0xFFD).dataAddr i := by
  refine ⟨by decide, by decide, ?_⟩
  intro i _ h
  have : 0xFFC = 0xFFD + i := h
  omega
/-- `V[0]` stored at address 0, as the glyph byte that is there already; the state `u` of the load is
the one after the store with `V[0]` changed. -/
theorem witness_BlockLoadUndoesBlockStore :
    ∃ t u : State, exec (.stBlock 0) (regs [(0, 0xF0)] State.reset) = .next t ∧
      u.I = (regs [(0, 0xF0)] State.reset).I ∧ u.mem = t.mem ∧ u.cfg = t.cfg ∧
      t.mem = [] ∧ u.getV 0 ≠ t.getV 0 := by
  obtain ⟨t, h, ht⟩ := exists_of_okWith (r := exec (.stBlock 0) (regs [(0, 0xF0)] State.reset))
    (p := fun t => t.getV 0 == 0xF0 && t.I == 0 && t.mem == []) (by decide)
  simp only [Bool.and_eq_true, beq_iff_eq] at ht
  exact ⟨t, t.setV 0 7, h, ht.1.2, rfl, rfl, ht.2, by simp [ht.1.1]⟩
/-- `V[0]`, `V[1]` stored at 0x200, where the next fetch is. -/
theorem witness_StoresAreSeenByTheNextFetch :
    ∃ t, exec (.stBlock 1) (State.reset.setI 0x200) = .next t ∧
      (decide ((1 : RegIdx).val = (0 : RegIdx).val + 1) &&
        decide (t.pc.toNat = (State.reset.setI 0x200).dataAddr (0 : RegIdx).val)) = true :=
  exists_of_okWith (by decide)
theorem witness_GlyphOfEveryDigit :
    ((regs [(3, 15)] State.reset).getV 3).toNat ≤ 15 ∧
    ∀ a, a < 80 → some ((regs [(3, 15)] State.reset).byte a) = (regs [(3, 15)] State.reset).cfg.font[a]? := by
  refine ⟨by decide, ?_⟩
  intro a h
  show some (if a < 80 then (font[a]?).getD 0 else 0) = font[a]?
  simp [h]
/-- No row, above memory; one row at the last byte; two rows from there. -/
theorem witness_DrawXorsTheSprite :
    (0 : Fin 16).val = 0 ∧ (State.reset.setI 0xFFF).I.toNat + (1 : Fin 16).val - 1 ≤ 4095 ∧
    1 ≤ (2 : Fin 16).val ∧ 4095 < (State.reset.setI 0xFFF).I.toNat + (2 : Fin 16).val - 1 := by decide
theorem witness_DrawTwiceIsIdentity :
    State.reset.FB = Framebuffer.blank ∧
    ∃ t, exec (.drw 0 0 5) State.reset = .next t ∧ (t.FB != Framebuffer.blank) = true :=
  ⟨by decide, exists_of_okWith (by decide)⟩
theorem witness_KeyDeliveryOnlyWhileWaiting :
    (State.reset.setWait ⟨true, 15⟩).wait.active = true ∧ State.reset.wait.active = false := by decide
/-- The longest program that fits, which leaves no address above it, and an address below it. -/
theorem witness_LoadInstallsTheProgram :
    (List.replicate 3584 (0xFF : Byte)).length ≤ 3584 ∧
    80 ≤ 0x1FF ∧ 0x1FF < 4096 ∧ (0x1FF < 0x200 ∨ 0x200 + 3584 ≤ 0x1FF) :=
  ⟨by rw [List.length_replicate], by decide, by decide, by decide⟩
theorem witness_OverlongLoadIsRejected : 3584 < (List.replicate 3585 (0 : Byte)).length := by
  rw [List.length_replicate]
  decide
theorem witness_HostCannotReachTheProgramState :
    (∀ b, Transaction.deliverKey 3 ≠ .step b) ∧ (∀ bs, Transaction.deliverKey 3 ≠ .load bs) ∧
    (∀ key, Transaction.clearRedraw ≠ .deliverKey key) ∧
    (transact (.setDelayTimer 3) (State.reset.setRedraw true)).state.redraw = true :=
  ⟨by simp, by simp, by simp, by decide⟩

end Sys2Proof.Tests
end

/-! SUPPORT. Nothing changes the parameters `FONT` and `VF_ORDER`: the operations that have no law of
their own for `cfg`, then the instruction, the step, the load, and the transaction (O59). -/

namespace Sys2Proof.Machine

variable {s t : State}

/-! ### Shared operations -/

@[simp] theorem State.skip_cfg (s : State) : s.skip.cfg = s.cfg := rfl

@[simp] theorem State.advance_cfg (s : State) : s.advance.cfg = s.cfg := rfl

@[simp] theorem State.putFlagged_cfg (s : State) (x : RegIdx) (r : Flagged) :
    (s.putFlagged x r).cfg = s.cfg := by
  rw [State.putFlagged_eq]

@[simp] theorem State.loadRegs_cfg (s : State) (base k : Nat) :
    (s.loadRegs base k).cfg = s.cfg := by
  rw [State.loadRegs_eq]

@[simp] theorem deliverKey_cfg (key : BitVec 4) (s : State) : (deliverKey key s).cfg = s.cfg := by
  unfold deliverKey
  split
  · simp
  · rfl

/-- A bounds-checked run has the parameters of the state it was given to answer. -/
theorem State.withRun_next_cfg {k : Nat} {u : State} (h : s.withRun k u = .next t) :
    t.cfg = u.cfg := by
  obtain ⟨-, rfl⟩ := s.withRun_next.1 h
  rfl

/-! ### The instruction, the step and the load -/

theorem execRet_next_cfg (h : execRet s = .next t) : t.cfg = s.cfg := by
  unfold execRet at h
  split at h
  · cases h
  · cases h
    simp

theorem execCall_next_cfg {addr : BitVec 12} (h : execCall addr s = .next t) : t.cfg = s.cfg := by
  unfold execCall at h
  split at h
  · cases h
    simp
  · cases h

/-- A completing instruction keeps the parameters (R7): the control operations by their own lemmas,
the memory operations by the law of the run, every other one by its only answer. -/
theorem exec_next_cfg {i : Instr} (h : exec i s = .next t) : t.cfg = s.cfg := by
  cases i with
  | ret => exact execRet_next_cfg h
  | call addr => exact execCall_next_cfg h
  | drw | stBlock | ldB | ldBlock => simpa using State.withRun_next_cfg h
  | se | sne =>
    cases h
    split <;> simp
  | cls | jp | ldImm | addImm | ldReg | xor | addReg | sub | shr | subn | shl | ldI | rnd | ldKey
  | ldDT | addI | ldF =>
    cases h
    simp

/-- A completing step keeps the parameters, suspended or running. -/
theorem step_next_cfg (h : step s = .next t) : t.cfg = s.cfg := by
  obtain ⟨-, rfl⟩ | ⟨-, -, i, -, hexec⟩ := step_next h
  · rfl
  · exact (exec_next_cfg hexec).trans s.advance_cfg

theorem stepWith_next_cfg {b : Byte} (h : stepWith b s = .next t) : t.cfg = s.cfg :=
  (step_next_cfg h).trans (s.setRnd_cfg b)

/-- A completing load builds its reset state with the parameters the machine has. -/
theorem load_next_cfg {bytes : List Byte} (h : load bytes s = .next t) : t.cfg = s.cfg := by
  unfold load at h
  split at h
  · cases h
    simp
  · cases h

/-! ### The transaction -/

/-- What holds of the state before a load or a step and of every state it can complete in, holds of
the state the host finds: an error leaves the state as it was (60_exceptions.md R268). -/
theorem hostResult_state_of {P : State → Prop} {r : Result} (hs : P s)
    (hnext : ∀ u, r = .next u → P u) : P (hostResult s r).state := by
  cases r with
  | next u => exact hnext u rfl
  | fault e => exact hs
  | refused e => exact hs

@[simp] theorem transact_cfg (tx : Transaction) (s : State) : (transact tx s).state.cfg = s.cfg := by
  cases tx with
  | load bytes =>
    exact hostResult_state_of (P := fun u => u.cfg = s.cfg) rfl fun _ h => load_next_cfg h
  | step b =>
    exact hostResult_state_of (P := fun u => u.cfg = s.cfg) rfl fun _ h => stepWith_next_cfg h
  | deliverKey key => exact deliverKey_cfg key s
  | clearRedraw | setDelayTimer | setSoundTimer => rfl
  | framebuffer | redrawPending | delayTimer | soundTimer => rfl

/-- Settles O59, by cases on the transaction: a step and a load complete in a state of the same
parameters or leave the state as it was, and every other transaction updates another field or none. -/
theorem parametersNeverChange : Obligations.ParametersNeverChange :=
  transact_cfg

end Sys2Proof.Machine

/-! SUPPORT. The laws of a completing instruction: what it changes (O22), where it leaves `pc` (O23),
what becomes of the stack, the latch and the memory. -/

namespace Sys2Proof.Machine

variable {s t : State} {i : Instr}

/-! ### Frames, read and built -/

section
variable {regs : List RegIdx} {parts : List Part}

theorem Frame.pc_eq (h : Frame regs parts s t) (hp : Part.pc ∉ parts) : t.pc = s.pc := by
  obtain ⟨-, -, hpc, -⟩ := h
  exact hpc hp

theorem Frame.sp_eq (h : Frame regs parts s t) (hp : Part.sp ∉ parts) : t.sp = s.sp := by
  obtain ⟨-, -, -, hsp, -⟩ := h
  exact hsp hp

theorem Frame.slot_eq (h : Frame regs parts s t) (hp : Part.S ∉ parts) (k : Nat) :
    t.slot k = s.slot k := by
  obtain ⟨-, -, -, -, hS, -⟩ := h
  exact State.slot_congr (hS hp) k

theorem Frame.wait_eq (h : Frame regs parts s t) (hp : Part.wait ∉ parts) : t.wait = s.wait := by
  obtain ⟨-, -, -, -, -, -, -, hwait, -⟩ := h
  exact hwait hp

/-- A change of registers alone. -/
theorem frame_of_regs (ht : t = { s with V := t.V }) (hr : ∀ r, r ∉ regs → t.getV r = s.getV r) :
    Frame regs [] s t := by
  refine ⟨hr, ?_⟩
  rw [ht]
  simp [State.byte]

end

theorem frame_setV (s : State) (x : RegIdx) (b : Byte) : Frame [x] [] s (s.setV x b) :=
  frame_of_regs rfl fun r hr => s.getV_setV_ne b (by simpa using hr)

theorem frame_putFlagged (s : State) (x : RegIdx) (r : Flagged) :
    Frame [x, VF] [] s (s.putFlagged x r) :=
  frame_of_regs (s.putFlagged_eq x r) fun q hq => by simp_all [State.getV_putFlagged]

/-- The registers of a block transfer are those its bytes go to. -/
theorem mem_regsUpTo {r x : RegIdx} : r ∈ regsUpTo x ↔ r.val < blockLength x := by
  simp [regsUpTo, blockLength]

theorem frame_loadRegs (s : State) (base : Nat) (x : RegIdx) :
    Frame (regsUpTo x) [] s (s.loadRegs base (blockLength x)) :=
  frame_of_regs (s.loadRegs_eq base _) fun r hr => by
    rw [mem_regsUpTo] at hr
    rw [s.getV_loadRegs base (blockLength x) x.isLt, if_neg hr]

/-! ### The stack operations, inverted -/

theorem execRet_next :
    execRet s = .next t ↔ 1 ≤ s.sp.val ∧ t = s.pop.setPc (s.slot s.sp.val) := by
  unfold execRet
  split
  · simp [raise]
    omega
  · simp [eq_comm]
    omega

theorem execCall_next {addr : BitVec 12} :
    execCall addr s = .next t ↔
      ∃ h : s.sp.val < 16, t = (s.push h s.pc).setPc (addrOperand addr) := by
  unfold execCall
  split
  · rename_i h
    simp [h, eq_comm]
  · rename_i h
    simp [h, raise]

/-! ### The frame of every instruction -/

/-- The rule of every operation, read for what it does not name. -/
theorem exec_frame (h : exec i s = .next t) : Frame i.regsWritten i.partsWritten s t := by
  cases i with
  | ret =>
    obtain ⟨-, rfl⟩ := execRet_next.1 h
    simp [Frame, Instr.partsWritten]
  | call addr =>
    obtain ⟨_, rfl⟩ := execCall_next.1 h
    simp [Frame, Instr.partsWritten]
  | se | sne =>
    cases h
    split <;> simp [Frame, Instr.partsWritten]
  | ldImm | ldReg | addImm | xor =>
    cases h
    exact frame_setV s _ _
  | addReg | sub | shr | subn | shl =>
    cases h
    exact frame_putFlagged s _ _
  | rnd =>
    cases h
    simp +contextual [Frame, Instr.partsWritten, Instr.regsWritten]
  | drw =>
    obtain ⟨-, rfl⟩ := s.withRun_next.1 h
    simp +contextual [Frame, Instr.partsWritten, Instr.regsWritten]
  | stBlock | ldB =>
    obtain ⟨-, rfl⟩ := s.withRun_next.1 h
    simp [Frame, Instr.partsWritten]
  | ldBlock =>
    obtain ⟨-, rfl⟩ := s.withRun_next.1 h
    exact frame_loadRegs s _ _
  | cls | jp | ldI | ldKey | ldDT | addI | ldF =>
    cases h
    simp [Frame, Instr.partsWritten]

/-- Settles O22, by the rule of every operation. -/
theorem onlyListedStateIsWritten : Obligations.OnlyListedStateIsWritten :=
  fun _ _ _ => exec_frame

/-! ### `pc`, stack and memory after an instruction -/

/-- `addrOperand` in the spelling of the table of 10_state.md R26. -/
theorem addrOperand_eq (addr : BitVec 12) : addrOperand addr = BitVec.ofNat 16 addr.toNat := by
  apply BitVec.eq_of_toNat_eq
  simp [addrOperand]

/-- Where every completing instruction leaves `pc`: the control operations by their rules, the others
by their frame. -/
theorem exec_next_pc (h : exec i s = .next t) : t.pc = pcAfter i s := by
  cases i with
  | ret =>
    obtain ⟨-, rfl⟩ := execRet_next.1 h
    rfl
  | call addr =>
    obtain ⟨_, rfl⟩ := execCall_next.1 h
    exact addrOperand_eq addr
  | jp addr =>
    cases h
    exact addrOperand_eq addr
  | se | sne =>
    cases h
    simp only [pcAfter]
    split <;> simp_all
  | _ => exact (exec_frame h).pc_eq (by simp [Instr.partsWritten])

/-- A held return address was held before, in the same slot, or is the `npc` that a call pushed. -/
theorem exec_next_slot (h : exec i s = .next t) {k : Nat} (h1 : 1 ≤ k) (hk : k ≤ t.sp.val) :
    (k ≤ s.sp.val ∧ t.slot k = s.slot k) ∨ t.slot k = s.pc := by
  cases i with
  | ret =>
    obtain ⟨-, rfl⟩ := execRet_next.1 h
    simp only [State.setPc_sp, State.pop_sp] at hk
    exact .inl ⟨by omega, rfl⟩
  | call addr =>
    obtain ⟨hsp, rfl⟩ := execCall_next.1 h
    by_cases htop : k = s.sp.val + 1
    · subst htop
      exact .inr (s.push_slot_top hsp s.pc)
    · simp only [State.setPc_sp, State.push_sp] at hk
      exact .inl ⟨by omega, s.push_slot_ne hsp s.pc h1 htop⟩
  | _ =>
    rw [(exec_frame h).sp_eq (by simp [Instr.partsWritten])] at hk
    exact .inl ⟨hk, (exec_frame h).slot_eq (by simp [Instr.partsWritten]) k⟩

/-- Memory changes by a run of stores only. -/
theorem exec_next_mem (h : exec i s = .next t) :
    t.mem = s.mem ∨ ∃ base bs, t = s.storeBytes base bs := by
  cases i with
  | stBlock | ldB =>
    obtain ⟨-, rfl⟩ := s.withRun_next.1 h
    exact .inr ⟨_, _, rfl⟩
  | ret =>
    obtain ⟨-, rfl⟩ := execRet_next.1 h
    exact .inl rfl
  | call addr =>
    obtain ⟨_, rfl⟩ := execCall_next.1 h
    exact .inl rfl
  | se | sne =>
    cases h
    split <;> exact .inl rfl
  | addReg | sub | shr | subn | shl =>
    cases h
    rw [State.putFlagged_eq]
    exact .inl rfl
  | drw =>
    obtain ⟨-, rfl⟩ := s.withRun_next.1 h
    exact .inl rfl
  | ldBlock =>
    obtain ⟨-, rfl⟩ := s.withRun_next.1 h
    rw [State.loadRegs_eq]
    exact .inl rfl
  | _ =>
    cases h
    exact .inl rfl

/-- Only `LD Vx,K` begins the key wait (10_state.md R31). -/
theorem exec_next_wait (h : exec i s = .next t) :
    t.wait = s.wait ∨ ∃ x, i = .ldKey x ∧ t.wait = ⟨true, x⟩ := by
  cases i with
  | ldKey x =>
    cases h
    exact .inr ⟨x, rfl, rfl⟩
  | _ => exact .inl ((exec_frame h).wait_eq (by simp [Instr.partsWritten]))

/-! ### The invariant -/

/-- The targets of R26 are at most `npc + 2`, from an `npc` at most 4096. -/
theorem pcAfter_le (hpc : s.pc.toNat ≤ 4096)
    (hslot : ∀ k, 1 ≤ k → k ≤ s.sp.val → (s.slot k).toNat ≤ 4096) (hret : i = .ret → 1 ≤ s.sp.val) :
    (pcAfter i s).toNat ≤ 4098 := by
  have hskip : (s.pc + 2).toNat ≤ 4098 := by bv_omega
  cases i with
  | ret => exact Nat.le_succ_of_le (Nat.le_succ_of_le (hslot _ (hret rfl) le_rfl))
  | jp addr | call addr =>
    simp only [pcAfter, BitVec.toNat_ofNat]
    omega
  | se | sne =>
    simp only [pcAfter]
    split <;> omega
  | _ => exact Nat.le_succ_of_le (Nat.le_succ_of_le hpc)

/-- An instruction that starts at an `npc` that follows a fetch keeps the invariant. -/
theorem exec_keeps_inv (hpc : s.pc.toNat ≤ 4096) (hinv : Inv s) (h : exec i s = .next t) :
    Inv t := by
  obtain ⟨-, hslot, hwf⟩ := hinv
  refine ⟨?_, fun k h1 hk => ?_, ?_⟩
  · rw [exec_next_pc h]
    refine pcAfter_le hpc hslot ?_
    rintro rfl
    exact (execRet_next.1 h).1
  · obtain ⟨hk, heq⟩ | heq := exec_next_slot h h1 hk
    · exact heq ▸ hslot k h1 hk
    · exact heq ▸ hpc
  · obtain hmem | ⟨base, bs, rfl⟩ := exec_next_mem h
    · rw [hmem, exec_next_cfg h]
      exact hwf
    · exact s.wf_storeBytes hwf base bs

theorem step_keeps_inv (hinv : Inv s) (h : step s = .next t) : Inv t := by
  obtain ⟨-, rfl⟩ | ⟨-, hpc, i, -, hexec⟩ := step_next h
  · exact hinv
  · have hnpc : (s.pc + 2).toNat ≤ 4096 := by bv_omega
    obtain ⟨-, hslot, hwf⟩ := hinv
    exact exec_keeps_inv (s := s.advance) hnpc ⟨hnpc.trans (by decide), hslot, hwf⟩ hexec

/-- Settles O17, by what a completing instruction does to `pc`, the held return addresses and the
memory. -/
theorem stepKeepsTheInvariant : Obligations.StepKeepsTheInvariant :=
  fun _ _ => step_keeps_inv

end Sys2Proof.Machine

/-! SUPPORT. What every transaction keeps: the invariant (O18, O19), the key wait (O9), and `pc` but
by the table of R26 (O23). -/

namespace Sys2Proof.Machine

variable {s t : State} {i : Instr} {b : Byte}

/-! ### Reset and load -/

theorem resetWith_inv (p : Config.Params) : Inv (State.resetWith p) := by
  refine ⟨by simp, fun k h1 hk => ?_, Memory.wf_reset p⟩
  exact absurd (h1.trans hk) (by simp)

/-- The glyph table stands at 0 to 79 after reset (20_memory.md R64). -/
theorem resetWith_byte (p : Config.Params) {a : Nat} (ha : a < 80) :
    (State.resetWith p).byte a = fontByte p.font a := by
  simp [State.byte, Memory.read, Memory.lookup, Memory.resetByte, Config.fontBytes, ha]

/-- Settles O18: with no return address held and no byte listed, the invariant is about `pc` alone. -/
theorem resetHasTheInvariant : Obligations.ResetHasTheInvariant := by
  refine ⟨fun p => ⟨resetWith_inv p, rfl, fun a ha => ?_⟩, State.reset_eq⟩
  simp [resetWith_byte p ha, fontByte, ha]

/-- What a completing load leaves: the reset state with the program's cells as its memory. -/
theorem load_next {bytes : List Byte} :
    load bytes s = .next t ↔ bytes.length ≤ 3584 ∧
      t = { State.resetWith s.cfg with
        mem := Memory.ofProgram s.cfg.font Config.progBase bytes
        rnd := s.rnd
        draws := s.draws } := by
  unfold load
  split <;> simp_all [Config.progMax, raise, eq_comm]

theorem load_next_pc {bytes : List Byte} (h : load bytes s = .next t) : t.pc = 0x200 := by
  obtain ⟨-, rfl⟩ := load_next.1 h
  rfl

theorem load_next_wait {bytes : List Byte} (h : load bytes s = .next t) : t.wait = ⟨false, 0⟩ := by
  obtain ⟨-, rfl⟩ := load_next.1 h
  rfl

/-- A program that a load takes ends inside memory. -/
theorem progBase_add_le {bytes : List Byte} (h : bytes.length ≤ 3584) :
    Config.progBase + bytes.length ≤ Config.memSize := by
  simp only [Config.progBase, Config.memSize]
  omega

theorem load_next_inv {bytes : List Byte} (h : load bytes s = .next t) : Inv t := by
  obtain ⟨hlen, rfl⟩ := load_next.1 h
  obtain ⟨hpc, hslot, -⟩ := resetWith_inv s.cfg
  exact ⟨hpc, hslot, Memory.wfFrom_mono (Nat.zero_le Config.progBase)
    (Memory.wfFrom_ofProgram Config.progBase bytes (progBase_add_le hlen))⟩

theorem load_next_byte {bytes : List Byte} (h : load bytes s = .next t) {k : Nat}
    (hk : k < bytes.length) : t.byte (Config.progBase + k) = bytes[k] := by
  obtain ⟨hlen, rfl⟩ := load_next.1 h
  exact (Memory.read_ofProgram _ bytes (progBase_add_le hlen) _).trans (by simp [hk])

/-- After a load the first fetch reads the program's first instruction. -/
theorem load_encode_fetchWord (h : load (encode i) s = .next t) : t.fetchWord = encodeWord i := by
  have hhi : t.byte 0x200 = highByte (encodeWord i) :=
    load_next_byte h (k := 0) (by simp [encode])
  have hlo : t.byte 0x201 = lowByte (encodeWord i) :=
    load_next_byte h (k := 1) (by simp [encode])
  simp [State.fetchWord, load_next_pc h, hhi, hlo]

/-! ### The step transaction -/

theorem stepWith_of_fetch (hw : s.wait.active = false) (hf : s.fetchInstr = .ok i) :
    stepWith b s = exec i (s.setRnd b).advance := by
  have hf' : (s.setRnd b).fetchInstr = .ok i := hf
  rw [stepWith, step_of_running (s := s.setRnd b) hw, hf']

/-- A completing step transaction was suspended, or ran the instruction it fetched. -/
theorem stepWith_next (h : stepWith b s = .next t) :
    (s.wait.active = true ∧ t = s.setRnd b) ∨
    (s.wait.active = false ∧ ∃ i, s.fetchInstr = .ok i ∧
      exec i (s.setRnd b).advance = .next t) := by
  obtain hsusp | ⟨hw, hpc, i, hd, hexec⟩ := step_next h
  · exact .inl hsusp
  · exact .inr ⟨hw, i, s.fetchInstr_ok.2 ⟨hpc, hd⟩, hexec⟩

/-! ### The invariant of every reachable state -/

/-- A key delivery writes a register and the latch, which the invariant does not read. -/
theorem deliverKey_inv (key : BitVec 4) (hinv : Inv s) : Inv (deliverKey key s) := by
  unfold deliverKey
  split <;> exact hinv

theorem transact_inv (tx : Transaction) (hinv : Inv s) : Inv (transact tx s).state := by
  cases tx with
  | load bytes => exact hostResult_state_of hinv fun _ h => load_next_inv h
  | step b => exact hostResult_state_of hinv fun _ h => step_keeps_inv (s := s.setRnd b) hinv h
  | deliverKey key => exact deliverKey_inv key hinv
  | _ => exact hinv

theorem Reachable.inv (h : Reachable s) : Inv s := by
  induction h with
  | reset p => exact resetWith_inv p
  | transact tx _ ih => exact transact_inv tx ih

/-! ### Every value of `VF` -/

theorem Reachable.load {bytes : List Byte} (hs : Reachable s) (h : load bytes s = .next t) :
    Reachable t := by
  simpa [Machine.transact, h, hostResult] using hs.transact (.load bytes)

theorem Reachable.stepWith (hs : Reachable s) (h : stepWith b s = .next t) : Reachable t := by
  simpa [Machine.transact, h, hostResult] using hs.transact (.step b)

theorem decodeWord_encodeWord_ldImm (x : RegIdx) (kk : Byte) :
    decodeWord (encodeWord (.ldImm x kk)) = some (.ldImm x kk) := by
  simp [decodeWord, encodeWord]

/-- `LD VF,b`, loaded as a program of one instruction and run, leaves `b` in `VF`. -/
theorem exists_reachable_VF (b : Byte) : ∃ s, Reachable s ∧ s.getV VF = b := by
  obtain ⟨s, hload⟩ : ∃ s, load (encode (.ldImm VF b)) State.reset = .next s :=
    ⟨_, load_next.2 ⟨by simp [encode], rfl⟩⟩
  have hpc : s.pc.toNat ≤ 4094 := by simp [load_next_pc hload]
  have hfetch : s.fetchInstr = .ok (.ldImm VF b) := s.fetchInstr_ok.2
    ⟨hpc, by rw [load_encode_fetchWord hload, decodeWord_encodeWord_ldImm]⟩
  have hstep : stepWith 0 s = .next ((s.setRnd 0).advance.setV VF b) :=
    stepWith_of_fetch (by simp [load_next_wait hload]) hfetch
  exact ⟨_, ((Reachable.reset defaultParams).load hload).stepWith hstep, State.getV_setV_self _ _ _⟩

/-- Settles O19: each transaction keeps the invariant, by induction every reachable state has it, and
a loaded `LD VF,b` reaches `b` in `VF`. -/
theorem reachableStatesHaveTheInvariant : Obligations.ReachableStatesHaveTheInvariant :=
  ⟨fun tx _ => transact_inv tx, fun s h => ⟨Nat.le_of_lt_succ s.sp.isLt, h.inv⟩,
    exists_reachable_VF⟩

/-! ### The key wait -/

theorem deliverKey_of_waiting (key : BitVec 4) (h : s.wait.active = true) :
    deliverKey key s =
      (s.setV s.wait.reg (keyToByte key)).setWait { s.wait with active := false } := by
  simp [deliverKey, h]

theorem deliverKey_of_running (key : BitVec 4) (h : s.wait.active = false) :
    deliverKey key s = s := by
  simp [deliverKey, h]

@[simp] theorem keyToByte_toNat (key : BitVec 4) : (keyToByte key).toNat = key.toNat :=
  BitVec.toNat_setWidth_of_le (by decide)

/-- A step that begins the wait ran `LD Vx,K`, and awaits the key in its register. -/
theorem stepWith_begins_wait (hs : s.wait.active = false) (h : stepWith b s = .next t)
    (ht : t.wait.active = true) :
    ∃ x, s.fetchInstr = .ok (.ldKey x) ∧ t.wait.reg = x := by
  obtain ⟨hw, -⟩ | ⟨-, i, hf, hexec⟩ := stepWith_next h
  · simp [hs] at hw
  · obtain hwait | ⟨x, rfl, hwait⟩ := exec_next_wait hexec
    · simp [hwait, hs] at ht
    · exact ⟨x, hf, by rw [hwait]⟩

/-- A suspended step ends no wait. -/
theorem stepWith_keeps_wait (hs : s.wait.active = true) (h : stepWith b s = .next t) :
    t.wait.active = true := by
  obtain ⟨-, rfl⟩ | ⟨hw, -⟩ := stepWith_next h
  · exact hs
  · simp [hs] at hw

/-- The wait begins by a step of `LD Vx,K` only. -/
theorem transact_begins_wait {tx : Transaction} (hs : s.wait.active = false)
    (ht : (transact tx s).state.wait.active = true) :
    ∃ b x, tx = .step b ∧ s.fetchInstr = .ok (.ldKey x) ∧
      (transact tx s).state.wait.reg = x := by
  cases tx with
  | load bytes =>
    have hf := hostResult_state_of (P := fun u => u.wait.active = false) hs
      fun _ (h : load bytes s = _) => by rw [load_next_wait h]
    exact absurd (hf.symm.trans ht) Bool.false_ne_true
  | step b =>
    obtain ⟨x, hx⟩ := hostResult_state_of
      (P := fun u => u.wait.active = true → ∃ x, s.fetchInstr = .ok (.ldKey x) ∧ u.wait.reg = x)
      (by simp [hs]) (fun _ h => stepWith_begins_wait hs h) ht
    exact ⟨b, x, rfl, hx⟩
  | deliverKey key => simp [transact, deliverKey_of_running key hs, hs] at ht
  | _ => exact absurd (hs.symm.trans ht) Bool.false_ne_true

/-- The wait ends by a key delivery, which writes the awaited register, or by a completing load. -/
theorem transact_ends_wait {tx : Transaction} (hs : s.wait.active = true)
    (ht : (transact tx s).state.wait.active = false) :
    (∃ key, tx = .deliverKey key ∧
      ((transact tx s).state.getV s.wait.reg).toNat = key.toNat) ∨
    (∃ bytes, tx = .load bytes ∧ bytes.length ≤ 3584) := by
  cases tx with
  | load bytes =>
    have hlen := hostResult_state_of (P := fun u => u.wait.active = false → bytes.length ≤ 3584)
      (by simp [hs]) (fun _ h _ => (load_next.1 h).1) ht
    exact .inr ⟨bytes, rfl, hlen⟩
  | step b =>
    have hw := hostResult_state_of (P := fun u => u.wait.active = true) hs
      fun _ h => stepWith_keeps_wait (b := b) hs h
    exact absurd (ht.symm.trans hw) Bool.false_ne_true
  | deliverKey key => exact .inl ⟨key, rfl, by simp [transact, deliverKey_of_waiting key hs]⟩
  | _ => exact absurd (ht.symm.trans hs) Bool.false_ne_true

/-- Settles O9, by cases on the transaction. -/
theorem suspensionIsTheKeyWait : Obligations.SuspensionIsTheKeyWait :=
  ⟨fun _ => step_of_suspended, fun _ _ => transact_begins_wait, fun _ _ => transact_ends_wait⟩

/-! ### `pc` after every step -/

/-- The table of R26 does not read the random byte. -/
theorem pcAfter_setRnd : pcAfter i (s.setRnd b) = pcAfter i s := by
  cases i <;> rfl

theorem hostResult_state_of_error {r : Result} {e : Fault}
    (h : (hostResult s r).reply = .error e) : (hostResult s r).state = s := by
  cases r with
  | fault => rfl
  | next | refused => cases h

theorem stepWith_of_suspended (h : s.wait.active = true) : stepWith b s = .next (s.setRnd b) :=
  step_of_suspended h

/-- Settles O23: a suspended step and an error by the host's result, a completing instruction by the
table. -/
theorem pcAfterEveryStep : Obligations.PcAfterEveryStep := by
  refine fun s b => ⟨fun hs => ?_, fun e he => ?_, fun i hs hf hok => ?_⟩
  · simp [transact, stepWith_of_suspended hs, hostResult]
  · rw [transact, hostResult_state_of_error he]
  · rw [transact, stepWith_of_fetch hs hf] at hok ⊢
    cases hexec : exec i (s.setRnd b).advance with
    | next t => exact (exec_next_pc hexec).trans (pcAfter_setRnd (s := s.advance))
    | fault | refused =>
      rw [hexec] at hok
      cases hok

end Sys2Proof.Machine

/-! SUPPORT. What cannot be observed: another list for the same memory (O20), the registers an
operation does not read (O21), the stack slots above the stack pointer (O24). -/

namespace Sys2Proof.Machine

variable {s t : State} {i : Instr}

/-! ### Canonical memory -/

section
variable {f : Config.Font} {lo : Nat} {m m' : Memory} {a : Nat} {b : Byte}

theorem Memory.wfFrom_cons : Memory.wfFrom f lo ((a, b) :: m) = true ↔
    lo ≤ a ∧ a < Config.memSize ∧ b ≠ Memory.resetByte f a ∧ Memory.wfFrom f (a + 1) m = true := by
  simp only [Memory.wfFrom, Bool.and_eq_true, decide_eq_true_eq, and_assoc]

theorem Memory.read_cons (a' : Nat) :
    Memory.read f ((a, b) :: m) a' = if a' = a then b else Memory.read f m a' := by
  simp only [Memory.read, Memory.lookup]
  split <;> rfl

/-- Below its first address a canonical list reads as the reset contents. -/
theorem Memory.read_of_lt (h : m.wfFrom f lo = true) (ha : a < lo) :
    m.read f a = Memory.resetByte f a := by
  rw [Memory.read, Memory.lookup_eq_none_of_lt h ha]
  rfl

/-- The first byte of a canonical list can be seen: a list that starts above it reads otherwise. -/
theorem Memory.read_first_ne (h : Memory.wfFrom f lo ((a, b) :: m) = true)
    (hm' : m'.wfFrom f (a + 1) = true) : Memory.read f ((a, b) :: m) a ≠ m'.read f a := by
  obtain ⟨-, -, hb, -⟩ := Memory.wfFrom_cons.1 h
  rw [Memory.read_cons, if_pos rfl, Memory.read_of_lt hm' (Nat.lt_succ_self a)]
  exact hb

/-- Canonical lists from the same address on that read alike are the same. -/
theorem Memory.ext_read (h : m.wfFrom f lo = true) (h' : m'.wfFrom f lo = true)
    (hread : ∀ c, c < 4096 → m.read f c = m'.read f c) : m = m' := by
  induction m generalizing lo m' with
  | nil =>
    cases m' with
    | nil => rfl
    | cons c' m' =>
      obtain ⟨-, ha', -⟩ := Memory.wfFrom_cons.1 h'
      exact absurd (hread _ ha').symm (Memory.read_first_ne h' rfl)
  | cons c m ih =>
    obtain ⟨a, b⟩ := c
    obtain ⟨-, ha, hb, hm⟩ := Memory.wfFrom_cons.1 h
    cases m' with
    | nil => exact absurd (hread a ha) (Memory.read_first_ne h rfl)
    | cons c' m' =>
      obtain ⟨a', b'⟩ := c'
      obtain ⟨-, ha', hb', hm'⟩ := Memory.wfFrom_cons.1 h'
      obtain hlt | rfl | hlt := Nat.lt_trichotomy a a'
      · exact absurd (hread a ha)
          (Memory.read_first_ne h (Memory.wfFrom_cons.2 ⟨hlt, ha', hb', hm'⟩))
      · have hbyte : b = b' := by simpa [Memory.read_cons] using hread a ha
        have htail : m = m' := ih hm hm' fun c hc => by
          by_cases hca : c = a
          · rw [hca, Memory.read_of_lt hm (Nat.lt_succ_self a),
              Memory.read_of_lt hm' (Nat.lt_succ_self a)]
          · simpa [Memory.read_cons, hca] using hread c hc
        rw [hbyte, htail]
      · exact absurd (hread a' ha').symm
          (Memory.read_first_ne h' (Memory.wfFrom_cons.2 ⟨hlt, ha, hb, hm⟩))

end

/-- Settles O20, by induction on the two lists: their first addresses agree, since each is seen. -/
theorem canonicalMemoryIsExtensional : Obligations.CanonicalMemoryIsExtensional :=
  fun _ _ _ => Memory.ext_read

/-! ### Outcomes that agree -/

/-- The second outcome is the same error as the first, or a next state related to the first's. -/
def Agree (R : State → State → Prop) (r r' : Result) : Prop :=
  match r with
  | .next t => ∃ t', r' = .next t' ∧ R t t'
  | .fault e => r' = .fault e
  | .refused q => r' = .refused q

section
variable {R : State → State → Prop}

theorem agree_next {t t' : State} (h : R t t') : Agree R (.next t) (.next t') :=
  ⟨t', rfl, h⟩

/-- What is known of the first outcome's state may be used for the relation. -/
theorem Agree.imp {R' : State → State → Prop} {r r' : Result} (h : Agree R r r')
    (himp : ∀ t t', r = .next t → R t t' → R' t t') : Agree R' r r' := by
  cases r with
  | next t =>
    obtain ⟨t', ht', hR⟩ := h
    exact ⟨t', ht', himp t t' rfl hR⟩
  | fault | refused => exact h

/-- Bounds-checked runs from the same `I` agree if the states they give do. -/
theorem agree_withRun {s s' u u' : State} {k : Nat} (hI : s'.I = s.I) (h : R u u') :
    Agree R (s.withRun k u) (s'.withRun k u') := by
  unfold State.withRun
  rw [hI]
  cases outOfRange s.I.toNat k with
  | none => exact agree_next h
  | some a => rfl

/-- `RET` at the same depth raises the same error, or gives states to compare at depth 1 and up. -/
theorem agree_execRet {s s' : State} (hsp : s'.sp = s.sp)
    (h : 1 ≤ s.sp.val → R (s.pop.setPc (s.slot s.sp.val)) (s'.pop.setPc (s'.slot s.sp.val))) :
    Agree R (execRet s) (execRet s') := by
  unfold execRet
  rw [hsp]
  split
  · rfl
  · exact agree_next (h (by omega))

/-- `CALL` at the same depth raises the same error, or gives states to compare below depth 16. -/
theorem agree_execCall {s s' : State} {addr : BitVec 12} (hsp : s'.sp = s.sp)
    (h : ∀ (hs : s.sp.val < 16) (hs' : s'.sp.val < 16),
      R ((s.push hs s.pc).setPc (addrOperand addr)) ((s'.push hs' s'.pc).setPc (addrOperand addr))) :
    Agree R (execCall addr s) (execCall addr s') := by
  unfold execCall
  by_cases hs : s.sp.val < 16
  · have hs' : s'.sp.val < 16 := hsp ▸ hs
    rw [dif_pos hs, dif_pos hs']
    exact agree_next (h hs hs')
  · have hs' : ¬ s'.sp.val < 16 := hsp ▸ hs
    rw [dif_neg hs, dif_neg hs']
    rfl

end

/-! ### Registers that are not read -/

/-- The state with another register file. -/
def State.withV (s : State) (V' : Vector Byte 16) : State := { s with V := V' }

/-- `t'` is `t`, but for the registers outside `regs`, which it has from `s'`. -/
def SameWrites (regs : List RegIdx) (s' t t' : State) : Prop :=
  (∀ r, t'.getV r = if r ∈ regs then t.getV r else s'.getV r) ∧ t' = { t with V := t'.V }

section
variable {V' : Vector Byte 16}

/-- What writes no register. -/
theorem sameWrites_nil (s t : State) : SameWrites [] (s.withV V') t (t.withV V') :=
  ⟨by simp [State.withV, State.getV], rfl⟩

theorem sameWrites_setV (s : State) (x : RegIdx) (b : Byte) :
    SameWrites [x] (s.withV V') (s.setV x b) ((s.withV V').setV x b) :=
  ⟨fun r => by by_cases h : r = x <;> simp [h], rfl⟩

theorem sameWrites_putFlagged (s : State) (x : RegIdx) (r : Flagged) :
    SameWrites [x, VF] (s.withV V') (s.putFlagged x r) ((s.withV V').putFlagged x r) := by
  refine ⟨fun q => ?_, ?_⟩
  · have hcfg : (s.withV V').cfg = s.cfg := rfl
    simp only [State.getV_putFlagged, hcfg, List.mem_cons, List.not_mem_nil, or_false]
    grind
  · rw [State.putFlagged_eq, State.putFlagged_eq s]
    rfl

theorem sameWrites_loadRegs (s : State) (base : Nat) (x : RegIdx) :
    SameWrites (regsUpTo x) (s.withV V') (s.loadRegs base (blockLength x))
      ((s.withV V').loadRegs base (blockLength x)) := by
  refine ⟨fun r => ?_, ?_⟩
  · simp only [mem_regsUpTo, State.getV_loadRegs _ base (blockLength x) x.isLt]
    split <;> rfl
  · rw [State.loadRegs_eq, State.loadRegs_eq s]
    rfl

/-- A block store reads the registers its table row lists, in order. -/
theorem firstRegs_congr {s s' : State} {x : RegIdx}
    (h : ∀ r ∈ regsUpTo x, s'.getV r = s.getV r) :
    s'.firstRegs (blockLength x) = s.firstRegs (blockLength x) := by
  have hlen : blockLength x ≤ 16 := x.isLt
  refine List.ext_getElem? fun k => ?_
  by_cases hk : k < blockLength x
  · rw [s'.getElem?_firstRegs hk hlen, s.getElem?_firstRegs hk hlen, h _ (mem_regsUpTo.2 hk)]
  · simp [hlen, hk]

/-- An operation whose listed operands are the same does the same to the registers it writes and to
everything else. -/
theorem exec_withV (h : ∀ r ∈ i.regsRead, (s.withV V').getV r = s.getV r) :
    Agree (SameWrites i.regsWritten (s.withV V')) (exec i s) (exec i (s.withV V')) := by
  cases i with
  | cls | jp | ldI | ldKey => exact agree_next (sameWrites_nil s _)
  | ret => exact agree_execRet rfl fun _ => sameWrites_nil s _
  | call addr => exact agree_execCall rfl fun _ _ => sameWrites_nil s _
  | se x kk | sne x kk =>
    simp only [Instr.regsRead, List.forall_mem_cons] at h
    simp only [exec, execSe, execSne, h]
    split <;> exact agree_next (sameWrites_nil s _)
  | ldDT x | addI x | ldF x =>
    simp only [Instr.regsRead, List.forall_mem_cons] at h
    simp only [exec, execLdDT, execAddI, execLdF, h]
    exact agree_next (sameWrites_nil s _)
  | ldImm | ldReg | addImm | xor =>
    simp only [Instr.regsRead, List.forall_mem_cons] at h
    simp only [exec, execLdImm, execLdReg, execAddImm, execXor, h]
    exact agree_next (sameWrites_setV s _ _)
  | rnd => exact agree_next (sameWrites_setV s.nextRandom _ _)
  | addReg | sub | shr | subn | shl =>
    simp only [Instr.regsRead, List.forall_mem_cons] at h
    simp only [exec, execAddReg, execSub, execShr, execSubn, execShl, h]
    exact agree_next (sameWrites_putFlagged s _ _)
  | drw x y n =>
    have hdraw : (s.withV V').draw x y n.val = s.draw x y n.val := by
      simp only [Instr.regsRead, List.forall_mem_cons] at h
      simp only [State.draw, h]
      rfl
    simp only [exec, execDrw, hdraw]
    exact agree_withRun rfl (sameWrites_setV ((s.setFB _).setRedraw true) VF _)
  | stBlock x =>
    simp only [exec, execStBlock, firstRegs_congr h]
    exact agree_withRun rfl (sameWrites_nil s _)
  | ldB x =>
    simp only [Instr.regsRead, List.forall_mem_cons] at h
    simp only [exec, execLdB, h]
    exact agree_withRun rfl (sameWrites_nil s _)
  | ldBlock x => exact agree_withRun rfl (sameWrites_loadRegs s _ x)

end

/-- Settles O21, by the operands each operation takes. -/
theorem onlyListedRegistersAreRead : Obligations.OnlyListedRegistersAreRead :=
  fun _ _ _ => exec_withV

/-! ### Stack slots above the stack pointer -/

/-- The state with other stack slots. -/
def State.withS (s : State) (S' : Vector Word 16) : State := { s with S := S' }

/-- `t'` is `t`, but for the stack slots above the stack pointer. -/
def SameLive (t t' : State) : Prop :=
  t' = { t with S := t'.S } ∧ ∀ k, 1 ≤ k → k ≤ t.sp.val → t'.slot k = t.slot k

section
variable {S' : Vector Word 16}

theorem withS_putFlagged (s : State) (x : RegIdx) (r : Flagged) :
    (s.withS S').putFlagged x r = (s.putFlagged x r).withS S' := by
  have hcfg : (s.withS S').cfg = s.cfg := rfl
  rw [State.putFlagged, State.putFlagged, hcfg]
  cases s.cfg.vfOrder <;> rfl

theorem withS_loadRegs (s : State) (base k : Nat) :
    (s.withS S').loadRegs base k = (s.loadRegs base k).withS S' := by
  induction k with
  | zero => rfl
  | succ k ih =>
    rw [State.loadRegs, ih]
    rfl

/-- An operation that leaves the stack pointer alone does the same whatever the slots hold, and keeps
them. -/
theorem exec_withS (h : Part.sp ∉ i.partsWritten) :
    Agree (fun t t' => t' = t.withS S') (exec i s) (exec i (s.withS S')) := by
  cases i with
  | ret | call => simp [Instr.partsWritten] at h
  | se x kk => exact agree_next (apply_ite (State.withS · S') (s.getV x = kk) s.skip s).symm
  | sne x kk => exact agree_next (apply_ite (State.withS · S') (s.getV x ≠ kk) s.skip s).symm
  | addReg | sub | shr | subn | shl => exact agree_next (withS_putFlagged s _ _)
  | drw | stBlock | ldB => exact agree_withRun rfl rfl
  | ldBlock => exact agree_withRun rfl (withS_loadRegs s _ _)
  | _ => exact agree_next rfl

/-- Operations read and leave live slots alike: `RET` takes the top live slot, `CALL` makes the next one
live with the same `npc`, and the others keep the stack. -/
theorem exec_sameLive (h : ∀ k, 1 ≤ k → k ≤ s.sp.val → (s.withS S').slot k = s.slot k) :
    Agree SameLive (exec i s) (exec i (s.withS S')) := by
  cases i with
  | ret =>
    refine agree_execRet rfl fun hsp => ⟨?_, fun k h1 hk => ?_⟩
    · rw [h _ hsp le_rfl]
      rfl
    · simp only [State.setPc_sp, State.pop_sp] at hk
      exact h k h1 (by omega)
  | call addr =>
    refine agree_execCall rfl fun hs hs' => ⟨rfl, fun k h1 hk => ?_⟩
    by_cases htop : k = s.sp.val + 1
    · subst htop
      exact ((s.withS S').push_slot_top hs' _).trans (s.push_slot_top hs _).symm
    · simp only [State.setPc_sp, State.push_sp] at hk
      calc ((s.withS S').push hs' s.pc).slot k = (s.withS S').slot k :=
            (s.withS S').push_slot_ne hs' _ h1 htop
        _ = s.slot k := h k h1 (by omega)
        _ = (s.push hs s.pc).slot k := (s.push_slot_ne hs _ h1 htop).symm
  | _ =>
    refine (exec_withS (by simp [Instr.partsWritten])).imp fun t t' ht ht' => ?_
    subst ht'
    have hframe := exec_frame ht
    refine ⟨rfl, fun k h1 hk => ?_⟩
    rw [hframe.sp_eq (by simp [Instr.partsWritten])] at hk
    exact (h k h1 hk).trans (hframe.slot_eq (by simp [Instr.partsWritten]) k).symm

theorem step_sameLive (h : ∀ k, 1 ≤ k → k ≤ s.sp.val → (s.withS S').slot k = s.slot k) :
    Agree SameLive (step s) (step (s.withS S')) := by
  cases hw : s.wait.active with
  | true =>
    rw [step_of_suspended hw, step_of_suspended (s := s.withS S') hw]
    exact agree_next ⟨rfl, h⟩
  | false =>
    have hfetch : (s.withS S').fetchInstr = s.fetchInstr := rfl
    rw [step_of_running hw, step_of_running (s := s.withS S') hw, hfetch]
    cases s.fetchInstr with
    | error e => rfl
    | ok i => exact exec_sameLive (s := s.advance) h

end

/-- Settles O24: neither the fetch nor an operation reads a slot above the stack pointer. -/
theorem deadStackSlotsAreUnobservable : Obligations.DeadStackSlotsAreUnobservable :=
  fun _ _ => step_sameLive

end Sys2Proof.Machine

/-! SUPPORT. Memory as instructions see it (20_memory.md): the fetch that leaves the address space
(O10), a stored block as the next fetch reads it (O45), and the glyph of a digit (O46). -/

namespace Sys2Proof.Machine

variable {s t : State}

/-! ### The bounds of the fetch -/

/-- A running core raises the error of its fetch. -/
theorem step_of_fetch_error {e : Fault} (hw : s.wait.active = false)
    (hf : s.fetchInstr = .error e) : step s = .fault e := by
  rw [step_of_running hw, hf]

/-- The bounds error of the fetch, without the other errors it can answer. -/
theorem State.fetchInstr_memOOB (s : State) {a : Nat} :
    s.fetchInstr = .error (.memOOB a) ↔ 4095 ≤ s.pc.toNat ∧ a = max s.pc.toNat 4096 := by
  simp [State.fetchInstr_error]

/-- Settles O10: the bounds error of the fetch is the error of the step, and `max pc 4096` is 4096
at 4095 and `pc` from 4096 on. -/
theorem fetchOutOfRangeRaisesMemOOB : Obligations.FetchOutOfRangeRaisesMemOOB := by
  intro s hw
  have hstep {a : Nat} (hpc : 4095 ≤ s.pc.toNat) (ha : a = max s.pc.toNat 4096) :
      step s = .fault (.memOOB a) :=
    step_of_fetch_error hw (s.fetchInstr_memOOB.2 ⟨hpc, ha⟩)
  refine ⟨fun hpc => hstep (by omega) (by omega), fun hpc => hstep (by omega) (by omega),
    fun hpc a hf => ?_⟩
  have := (s.fetchInstr_memOOB.1 hf).1
  omega

/-! ### A stored block -/

/-- A block store completes exactly if the whole run is in range, and then it stores the registers
from `I` on. -/
theorem exec_stBlock_next {x : RegIdx} :
    exec (.stBlock x) s = .next t ↔ s.I.toNat + blockLength x ≤ 4096 ∧
      t = s.storeBytes (s.dataAddr 0) (s.firstRegs (blockLength x)) := by
  have hlen : blockLength x ≠ 0 := x.val.succ_ne_zero
  simp [exec, execStBlock, State.withRun_next, hlen]

/-- After a block store, each stored register stands at its data address. -/
theorem exec_stBlock_byte {x i : RegIdx} (h : exec (.stBlock x) s = .next t)
    (hi : i.val ≤ x.val) : t.byte (s.dataAddr i.val) = s.getV i := by
  obtain ⟨hrange, rfl⟩ := exec_stBlock_next.1 h
  have hlen : blockLength x ≤ 16 := x.isLt
  have hmem : i.val < blockLength x := Nat.lt_succ_of_le hi
  have hoff : s.dataAddr i.val - s.dataAddr 0 = i.val := Nat.add_sub_cancel_left ..
  rw [State.byte_storeBytes s _ _ (by simpa [hlen, State.dataAddr, Config.memSize] using hrange),
    if_pos (by simp [hlen, State.dataAddr, hmem]), hoff, s.getElem?_firstRegs hmem hlen]
  rfl

/-- Settles O45: the fetch reads the two registers at the data addresses they were stored to, `V[i]`
at the lower one. -/
theorem storesAreSeenByTheNextFetch : Obligations.StoresAreSeenByTheNextFetch := by
  intro x i j s t h hj hij hpc
  have hnext : s.dataAddr i.val + 1 = s.dataAddr j.val := by
    rw [hij]
    rfl
  rw [t.fetchWord_toNat, hpc, hnext, exec_stBlock_byte h hj, exec_stBlock_byte h (by omega)]

/-! ### The glyph of a digit -/

/-- The formula of `LD F,Vx` never wraps: 5 times a byte fits a word. -/
theorem glyphAddr_toNat (v : Byte) : (glyphAddr v).toNat = 5 * v.toNat := by
  have hv := v.isLt
  have h5 : (5 : Word).toNat = 5 := rfl
  rw [glyphAddr, byteToWord, BitVec.toNat_mul, BitVec.toNat_setWidth, h5]
  omega

/-- Settles O46: `LD F,Vx` leaves memory alone and points `I` at byte 5 `V[x]`, and the glyph of a
digit up to 15 ends within the 80 bytes of the table. -/
theorem glyphOfEveryDigit : Obligations.GlyphOfEveryDigit := by
  intro x s hx htable
  refine ⟨s.setI (glyphAddr (s.getV x)), rfl, fun k hk => ?_⟩
  rw [State.setI_byte, State.dataAddr, State.setI_I, glyphAddr_toNat]
  exact htable _ (by omega)

end Sys2Proof.Machine

/-! SUPPORT. The decoder, the encoder, the opcode map and the assembler (30_encoding.md): the words
that decode to an instruction, and from them the round trips, the operand fields and the rows (O1 to
O6), then the lines an instruction is written as (O7). -/

namespace Sys2Proof

variable {w v : Word} {i : Instr} {op : BitVec 4}

/-! ### A word is the layout of its fields -/

theorem packNNN_of_fields (hop : opField w = op) : packNNN op (addrField w) = w := by
  subst hop
  apply BitVec.eq_of_toNat_eq
  rw [packNNN_toNat, opField_toNat, addrField_toNat]
  omega

theorem packXKK_of_fields {kk : Byte} (hop : opField w = op) (hkk : kkField w = kk) :
    packXKK op (xField w) kk = w := by
  subst hop hkk
  apply BitVec.eq_of_toNat_eq
  rw [packXKK_toNat, opField_toNat, xField_val, kkField_toNat]
  omega

theorem packXYN_of_fields {n : BitVec 4} (hop : opField w = op) (hn : nField w = n) :
    packXYN op (xField w) (yField w) n.toFin = w := by
  subst hop hn
  apply BitVec.eq_of_toNat_eq
  rw [packXYN_toNat, opField_toNat, xField_val, yField_val, BitVec.val_toFin, nField_toNat]
  omega

/-! ### Decoding an encoding -/

/-- The decoder finds the selectors and the operands in the fields the layout puts them in. -/
theorem decodeWord_encodeWord (i : Instr) : decodeWord (encodeWord i) = some i := by
  cases i with
  | cls | ret => rfl
  | jp | call | se | sne | ldImm | addImm | ldI | rnd | drw => simp [encodeWord, decodeWord]
  | ldReg | xor | addReg | sub | shr | subn | shl =>
    simp [encodeWord, decodeWord, decodeFamily8]
  | ldKey | ldDT | addI | ldF | ldB | stBlock | ldBlock =>
    simp [encodeWord, decodeWord, decodeFamilyF]

theorem decode_encode_append (i : Instr) (rest : List Byte) :
    decode (encode i ++ rest) = .ok (i, rest) := by
  simp [encode, decode, decodeWord_encodeWord]

/-- Settles O3, by cases on the instruction: each layout is read back field by field, and the two
bytes of a word make the word. -/
theorem decodeOfEncodeIsIdentity : Obligations.DecodeOfEncodeIsIdentity :=
  fun i rest => ⟨decodeWord_encodeWord i, decode_encode_append i rest⟩

/-! ### The words that decode to an instruction -/

/-- The word of an instruction, with `y` in the field that the shifts ignore (R100). -/
def Instr.wordWithY (y : Fin 16) : Instr → Word
  | .shr x => packXYN 0x8 x y 0x6
  | .shl x => packXYN 0x8 x y 0xE
  | i => encodeWord i

theorem decodeWord_wordWithY (i : Instr) (y : Fin 16) : decodeWord (i.wordWithY y) = some i := by
  cases i with
  | shr x | shl x => simp [Instr.wordWithY, decodeWord, decodeFamily8]
  | _ => exact decodeWord_encodeWord _

theorem wordWithY_of_decodeFamily8 (hop : opField w = 0x8#4) (h : decodeFamily8 w = some i) :
    i.wordWithY (yField w) = w := by
  unfold decodeFamily8 at h
  split at h
  case h_8 => cases h
  all_goals
    rename_i hn
    cases h
    exact packXYN_of_fields hop hn

theorem wordWithY_of_decodeFamilyF (hop : opField w = 0xF#4) (h : decodeFamilyF w = some i) :
    i.wordWithY (yField w) = w := by
  unfold decodeFamilyF at h
  split at h
  case h_8 => cases h
  all_goals
    rename_i hkk
    cases h
    exact packXKK_of_fields hop hkk

/-- The families of the decoder, format by format. -/
theorem wordWithY_of_decodeWord (h : decodeWord w = some i) : i.wordWithY (yField w) = w := by
  unfold decodeWord at h
  split at h
  case h_1 =>
    split at h
    next hw =>
      cases h
      exact hw.symm
    next =>
      obtain ⟨hw, hret⟩ := Option.ite_none_right_eq_some.1 h
      cases hret
      exact hw.symm
  case h_2 hop | h_3 hop | h_9 hop =>
    cases h
    exact packNNN_of_fields hop
  case h_4 hop | h_5 hop | h_6 hop | h_7 hop | h_10 hop =>
    cases h
    exact packXKK_of_fields hop rfl
  case h_8 hop => exact wordWithY_of_decodeFamily8 hop h
  case h_11 hop =>
    cases h
    exact packXYN_of_fields hop rfl
  case h_12 hop => exact wordWithY_of_decodeFamilyF hop h
  case h_13 => cases h

/-- What a word can decode to: the instructions it is a word of, with any value in the ignored
field. -/
theorem decodeWord_eq_some : decodeWord w = some i ↔ ∃ y, i.wordWithY y = w := by
  constructor
  · exact fun h => ⟨yField w, wordWithY_of_decodeWord h⟩
  · rintro ⟨y, rfl⟩
    exact decodeWord_wordWithY i y

/-! ### Encoding a decoded word, and its operands -/

/-- The mask 0xFF0F clears the `y` field. -/
theorem packXYN_and_FF0F (op : BitVec 4) (x y n : Fin 16) :
    packXYN op x y n &&& 0xFF0F#16 = packXYN op x 0 n := by
  apply BitVec.eq_of_getLsbD_eq
  intro k hk
  rw [BitVec.getLsbD_and, getLsbD_packXYN, getLsbD_packXYN]
  interval_cases k <;> simp

/-- Settles O4: a word that decodes is the encoding of what it decodes to, but for the `y` field of a
shift, which the encoding has as 0. -/
theorem encodeOfDecodeIsCanonical : Obligations.EncodeOfDecodeIsCanonical := by
  intro w i h
  obtain ⟨y, rfl⟩ := decodeWord_eq_some.1 h
  constructor
  · rintro ⟨x, rfl | rfl⟩ <;> exact (packXYN_and_FF0F _ x y _).symm
  · intro hshift
    cases i with
    | shr x | shl x => simp at hshift
    | _ => rfl

/-- Settles O6, by cases on the decoded instruction: the fields of its layout are its operands. -/
theorem decodedOperandsAreTheFields : Obligations.DecodedOperandsAreTheFields := by
  intro w i h
  obtain ⟨y, rfl⟩ := decodeWord_eq_some.1 h
  cases i with
  | cls | ret => trivial
  | jp | call | ldI =>
    simp [Machine.OperandsAreFields, Instr.wordWithY, encodeWord, ← addrField_toNat]
  | se | sne | ldImm | addImm | rnd =>
    simp [Machine.OperandsAreFields, Instr.wordWithY, encodeWord, ← xField_val, ← kkField_toNat]
  | ldReg | xor | addReg | sub | subn =>
    simp [Machine.OperandsAreFields, Instr.wordWithY, encodeWord, ← xField_val, ← yField_val]
  | drw =>
    simp [Machine.OperandsAreFields, Instr.wordWithY, encodeWord, ← xField_val, ← yField_val,
      ← nField_toNat]
  | shr | shl | ldKey | ldDT | addI | ldF | ldB | stBlock | ldBlock =>
    simp [Machine.OperandsAreFields, Instr.wordWithY, encodeWord, ← xField_val]

/-! ### The opcode map: two words of one row agree in the fields its mask keeps -/

section
variable {r : OpcodeRow}

theorem and_mask_eq_of_selects (hw : r.selects w = true) (hv : r.selects v = true) :
    w &&& r.mask = v &&& r.mask :=
  (eq_of_beq hw).trans (eq_of_beq hv).symm

theorem eq_of_selects_FFFF (hw : r.selects w = true) (hv : r.selects v = true)
    (hm : r.mask = BitVec.allOnes 16) : w = v := by
  have h := and_mask_eq_of_selects hw hv
  rwa [hm, BitVec.and_allOnes, BitVec.and_allOnes] at h

theorem opField_eq_of_selects_F000 (hw : r.selects w = true) (hv : r.selects v = true)
    (hm : r.mask = 0xF000#16) : opField w = opField v := by
  have h := and_mask_eq_of_selects hw hv
  rw [hm, and_F000, and_F000] at h
  simpa using congrArg opField h

theorem fields_eq_of_selects_F00F (hw : r.selects w = true) (hv : r.selects v = true)
    (hm : r.mask = 0xF00F#16) : opField w = opField v ∧ nField w = nField v := by
  have h := and_mask_eq_of_selects hw hv
  rw [hm, and_F00F, and_F00F] at h
  exact ⟨by simpa using congrArg opField h, by simpa using congrArg nField h⟩

theorem fields_eq_of_selects_F0FF (hw : r.selects w = true) (hv : r.selects v = true)
    (hm : r.mask = 0xF0FF#16) : opField w = opField v ∧ kkField w = kkField v := by
  have h := and_mask_eq_of_selects hw hv
  rw [hm, and_F0FF, and_F0FF] at h
  exact ⟨by simpa using congrArg opField h, by simpa using congrArg kkField h⟩

end

/-! ### The opcode map and the decoder -/

/-- The statement of Laws/PerInstr.lean for every instruction. -/
theorem rowOfEncoding (i : Instr) : Laws.RowOfEncoding.Statement i := by
  open Laws.RowOfEncoding in
  cases i
  exacts [cls, ret, jp _, call _, se _ _, sne _ _, ldImm _ _, addImm _ _, ldReg _ _, xor _ _,
    addReg _ _, sub _ _, shr _, subn _ _, shl _, ldI _, rnd _ _, drw _ _ _, ldKey _, ldDT _, addI _,
    ldF _, ldB _, stBlock _, ldBlock _]

theorem row_mem_opcodeMap (i : Instr) : i.row ∈ opcodeMap := (rowOfEncoding i).1

theorem row_selects_encodeWord (i : Instr) : i.row.selects (encodeWord i) = true :=
  (rowOfEncoding i).2

theorem row_selects_wordWithY (i : Instr) (y : Fin 16) : i.row.selects (i.wordWithY y) = true := by
  cases i with
  | shr x | shl x =>
    refine beq_iff_eq.2 ((and_F00F _).trans ?_)
    rw [Instr.wordWithY, opField_packXYN, nField_packXYN]
    rfl
  | _ => exact row_selects_encodeWord _

/-- A word that the row of an instruction selects agrees with the instruction's own word in all that
the decoder selects by. -/
theorem map_row_decodeWord_of_selects (h : i.row.selects w = true) :
    (decodeWord w).map Instr.row = some i.row := by
  have hi := row_selects_encodeWord i
  cases i with
  | cls | ret =>
    rw [eq_of_selects_FFFF h hi rfl, decodeWord_encodeWord]
    rfl
  | jp | call | se | sne | ldImm | addImm | ldI | rnd | drw =>
    have hop := opField_eq_of_selects_F000 h hi rfl
    simp [decodeWord, hop, encodeWord, Instr.row]
  | ldReg | xor | addReg | sub | shr | subn | shl =>
    obtain ⟨hop, hn⟩ := fields_eq_of_selects_F00F h hi rfl
    simp [decodeWord, decodeFamily8, hop, hn, encodeWord, Instr.row]
  | ldKey | ldDT | addI | ldF | ldB | stBlock | ldBlock =>
    obtain ⟨hop, hkk⟩ := fields_eq_of_selects_F0FF h hi rfl
    simp [decodeWord, decodeFamilyF, hop, hkk, encodeWord, Instr.row]

/-- Every row of the opcode map is the row of an instruction. -/
theorem exists_row_of_mem {r : OpcodeRow} (hr : r ∈ opcodeMap) : ∃ i : Instr, i.row = r := by
  have hmap : opcodeMap = List.map Instr.row
      [.cls, .ret, .jp 0, .call 0, .se 0 0, .sne 0 0, .ldImm 0 0, .addImm 0 0, .ldReg 0 0, .xor 0 0,
        .addReg 0 0, .sub 0 0, .shr 0, .subn 0 0, .shl 0, .ldI 0, .rnd 0 0, .drw 0 0 0, .ldKey 0,
        .ldDT 0, .addI 0, .ldF 0, .ldB 0, .stBlock 0, .ldBlock 0] := rfl
  rw [hmap] at hr
  obtain ⟨i, -, hi⟩ := List.mem_map.1 hr
  exact ⟨i, hi⟩

theorem opcodeMap_nodup : opcodeMap.Nodup := List.Nodup.of_map OpcodeRow.pattern (by decide)

/-- A row of the map selects exactly the words that decode to an instruction of the row. -/
theorem selects_iff_map_row {r : OpcodeRow} (hr : r ∈ opcodeMap) :
    r.selects w = true ↔ (decodeWord w).map Instr.row = some r := by
  constructor
  · obtain ⟨i, rfl⟩ := exists_row_of_mem hr
    exact map_row_decodeWord_of_selects
  · intro h
    obtain ⟨i, hi, rfl⟩ := Option.map_eq_some_iff.1 h
    obtain ⟨y, rfl⟩ := decodeWord_eq_some.1 hi
    exact row_selects_wordWithY i y

/-- Settles O5: a selecting row is the row of the decoded instruction, which stands in the map once. -/
theorem opcodeMapAgreesWithDecoder : Obligations.OpcodeMapAgreesWithDecoder := by
  intro w
  cases hd : decodeWord w with
  | none =>
    refine List.filter_eq_nil_iff.2 fun r hr h => ?_
    simp [selects_iff_map_row hr, hd] at h
  | some i =>
    calc opcodeMap.filter (fun r => r.selects w) = opcodeMap.filter (· == i.row) :=
          List.filter_congr fun r hr => by
            rw [Bool.eq_iff_iff, selects_iff_map_row hr, hd, Option.map_some, Option.some_inj,
              beq_iff_eq, eq_comm]
      _ = [i.row] := by
          rw [List.filter_beq, List.count_eq_one_of_mem opcodeMap_nodup (row_mem_opcodeMap i)]
          rfl

/-! ### Words of the source -/

theorem opField_eq_iff : opField w = op ↔ w.toNat / 4096 = op.toNat := by
  rw [← opField_toNat, BitVec.toNat_inj]

theorem decodeWord_of_family_A (hw : w.toNat / 4096 = 0xA) :
    decodeWord w = some (.ldI (addrField w)) := by
  have hop : opField w = 0xA#4 := opField_eq_iff.2 hw
  rw [decodeWord, hop]
  rfl

theorem decodeWord_of_family_D (hw : w.toNat / 4096 = 0xD) :
    decodeWord w = some (.drw (xField w) (yField w) (nField w).toFin) := by
  have hop : opField w = 0xD#4 := opField_eq_iff.2 hw
  rw [decodeWord, hop]
  rfl

/-- Settles O1: the three words by evaluation, the two families by their fields. -/
theorem sourceWordsDecode : Obligations.SourceWordsDecode :=
  ⟨rfl, rfl, rfl,
    fun w hw => ⟨_, decodeWord_of_family_A hw, addrField_toNat w⟩,
    fun w hw => ⟨_, _, _, decodeWord_of_family_D hw, nField_toNat w,
      .inl ⟨xField_val w, yField_val w⟩⟩⟩

/-- Settles O2, by evaluating the decoder on the twelve words. -/
theorem familyWordsDecode : Obligations.FamilyWordsDecode := by
  unfold Obligations.FamilyWordsDecode
  decide

/-! ### Written lines -/

theorem asmReg_eq_ok {n : Nat} {x : RegIdx} : asmReg n = .ok x ↔ n = x.val := by
  unfold asmReg
  split
  next => simp [Fin.ext_iff]
  next h => exact ⟨nofun, fun hn => absurd (hn ▸ x.isLt) h⟩

theorem asmByte_eq_ok {n : Nat} {kk : Byte} : asmByte n = .ok kk ↔ n = kk.toNat := by
  unfold asmByte
  split
  next h =>
    rw [Except.ok.injEq, ← BitVec.toNat_inj, BitVec.toNat_ofNat, Nat.mod_eq_of_lt h]
  next h => exact ⟨nofun, fun hn => absurd (hn ▸ kk.isLt) h⟩

theorem asmNibble_eq_ok {n : Nat} {k : Fin 16} : asmNibble n = .ok k ↔ n = k.val := by
  unfold asmNibble
  split
  next => simp [Fin.ext_iff]
  next h => exact ⟨nofun, fun hn => absurd (hn ▸ k.isLt) h⟩

theorem asmAddr_eq_ok {n : Nat} {a : BitVec 12} : asmAddr n = .ok a ↔ n = a.toNat := by
  unfold asmAddr
  split
  next h =>
    rw [Except.ok.injEq, ← BitVec.toNat_inj, BitVec.toNat_ofNat, Nat.mod_eq_of_lt h]
  next h => exact ⟨nofun, fun hn => absurd (hn ▸ a.isLt) h⟩

/-- A check that is followed by others passes if it and they do. -/
theorem bind_eq_ok {ε α β : Type} {e : Except ε α} {f : α → Except ε β} {b : β} :
    e >>= f = .ok b ↔ ∃ a, e = .ok a ∧ f a = .ok b := by
  cases e <;> simp [bind, Except.bind]

/-- The operands of an instruction are in range. -/
theorem assemble_toAsm (i : Instr) : assemble i.toAsm = .ok i := by
  cases i <;> simp [Instr.toAsm, assemble, bind_eq_ok, asmReg_eq_ok, asmByte_eq_ok,
    asmNibble_eq_ok, asmAddr_eq_ok, pure, Except.pure]

theorem AsmLine.eq_of_fields {l l' : AsmLine} (hm : l.mnemonic = l'.mnemonic)
    (ho : l.operands = l'.operands) : l = l' := by
  cases l
  cases l'
  simp_all

/-- The 25 forms, by the operands they have: none, an address, a register and a byte, two registers,
two registers and a row count, one register. -/
theorem toAsm_of_assemble {l : AsmLine} (h : assemble l = .ok i) : l = i.toAsm := by
  unfold assemble at h
  split at h
  case h_1 hm ho | h_2 hm ho =>
    cases h
    exact AsmLine.eq_of_fields hm ho
  case h_3 hm ho | h_4 hm ho | h_7 hm ho =>
    simp only [bind_eq_ok, asmAddr_eq_ok] at h
    obtain ⟨a, rfl, h⟩ := h
    cases h
    exact AsmLine.eq_of_fields hm ho
  case h_5 hm ho | h_6 hm ho | h_8 hm ho | h_10 hm ho | h_17 hm ho =>
    simp only [bind_eq_ok, asmReg_eq_ok, asmByte_eq_ok] at h
    obtain ⟨x, rfl, kk, rfl, h⟩ := h
    cases h
    exact AsmLine.eq_of_fields hm ho
  case h_9 hm ho | h_11 hm ho | h_12 hm ho | h_13 hm ho | h_16 hm ho =>
    simp only [bind_eq_ok, asmReg_eq_ok] at h
    obtain ⟨x, rfl, y, rfl, h⟩ := h
    cases h
    exact AsmLine.eq_of_fields hm ho
  case h_18 hm ho =>
    simp only [bind_eq_ok, asmReg_eq_ok, asmNibble_eq_ok] at h
    obtain ⟨x, rfl, y, rfl, n, rfl, h⟩ := h
    cases h
    exact AsmLine.eq_of_fields hm ho
  case h_14 hm ho | h_15 hm ho | h_19 hm ho | h_20 hm ho | h_21 hm ho | h_22 hm ho |
      h_23 hm ho | h_24 hm ho | h_25 hm ho =>
    simp only [bind_eq_ok, asmReg_eq_ok] at h
    obtain ⟨x, rfl, h⟩ := h
    cases h
    exact AsmLine.eq_of_fields hm ho
  case h_26 => cases h

/-- Settles O7: a line that assembles has one of the 25 forms with operands in range, and an
instruction's own line assembles to it. -/
theorem assemblesExactlyTheForms : Obligations.AssemblesExactlyTheForms :=
  fun _ i => ⟨toAsm_of_assemble, fun h => h ▸ assemble_toAsm i⟩

end Sys2Proof

/-! SUPPORT. The step cycle (40_step_cycle.md): the instruction a running core runs (O8), what no step
touches (O12), and who reads the random byte (O16). -/

namespace Sys2Proof.Machine

variable {s t : State} {i : Instr} {b : Byte}

/-! ### The instruction a step runs -/

theorem step_of_fetch_ok (hw : s.wait.active = false) (hf : s.fetchInstr = .ok i) :
    step s = exec i s.advance := by
  rw [step_of_running hw, hf]

/-- The fetched word as its two bytes make it by arithmetic, the byte at the lower address times 256
(20_memory.md R69). -/
theorem State.fetchWord_eq_ofNat (s : State) :
    s.fetchWord =
      BitVec.ofNat 16 ((s.byte s.pc.toNat).toNat * 256 + (s.byte (s.pc.toNat + 1)).toNat) := by
  rw [← s.fetchWord_toNat, BitVec.ofNat_toNat, BitVec.setWidth_eq]

/-- Settles O8: in range, the fetch answers the decoded instruction. -/
theorem stepRunsTheDecodedInstr : Obligations.StepRunsTheDecodedInstr := by
  intro s i hw hpc hd
  rw [← s.fetchWord_eq_ofNat] at hd
  exact step_of_fetch_ok hw (s.fetchInstr_ok.2 ⟨Nat.le_of_succ_le_succ hpc, hd⟩)

/-! ### What no step touches -/

section
variable {regs : List RegIdx} {parts : List Part}

theorem Frame.DT_eq (h : Frame regs parts s t) (hp : Part.DT ∉ parts) : t.DT = s.DT := by
  obtain ⟨-, -, -, -, -, hDT, -⟩ := h
  exact hDT hp

theorem Frame.ST_eq (h : Frame regs parts s t) (hp : Part.ST ∉ parts) : t.ST = s.ST := by
  obtain ⟨-, -, -, -, -, -, hST, -⟩ := h
  exact hST hp

theorem Frame.FB_eq (h : Frame regs parts s t) (hp : Part.FB ∉ parts) : t.FB = s.FB := by
  obtain ⟨-, -, -, -, -, -, -, -, hFB, -⟩ := h
  exact hFB hp

theorem Frame.redraw_eq (h : Frame regs parts s t) (hp : Part.redraw ∉ parts) :
    t.redraw = s.redraw := by
  obtain ⟨-, -, -, -, -, -, -, -, -, hredraw, -⟩ := h
  exact hredraw hp

end

/-- No operation writes `ST` (10_state.md R30). -/
theorem ST_notMem_partsWritten (i : Instr) : Part.ST ∉ i.partsWritten := by
  cases i <;> simp [Instr.partsWritten]

/-- Only `LD DT,Vx` writes `DT` (10_state.md R29). -/
theorem DT_mem_partsWritten : Part.DT ∈ i.partsWritten ↔ ∃ x, i = .ldDT x := by
  cases i <;> simp [Instr.partsWritten]

/-- Only `CLS` and `DRW` write the framebuffer (10_state.md R32). -/
theorem FB_mem_partsWritten : Part.FB ∈ i.partsWritten ↔ i = .cls ∨ ∃ x y n, i = .drw x y n := by
  cases i <;> simp [Instr.partsWritten]

/-- An instruction keeps the redraw flag or sets it (10_state.md R33): `CLS` and `DRW` set it, the
others leave it alone. -/
theorem exec_next_redraw (h : exec i s = .next t) : t.redraw = s.redraw ∨ t.redraw = true := by
  cases i with
  | cls =>
    cases h
    exact .inr rfl
  | drw =>
    obtain ⟨-, rfl⟩ := s.withRun_next.1 h
    exact .inr rfl
  | _ => exact .inl ((exec_frame h).redraw_eq (by simp [Instr.partsWritten]))

/-- Every operation has a meaning: the stack operations raise or complete, and so does a
bounds-checked run; the others complete. -/
theorem exec_ne_refused (i : Instr) (s : State) (r : Refusal) : exec i s ≠ .refused r := by
  cases i with
  | ret =>
    simp only [exec, execRet, raise]
    split <;> simp
  | call addr =>
    simp only [exec, execCall, raise]
    split <;> simp
  | drw | stBlock | ldBlock | ldB => exact s.withRun_refused
  | _ => exact nofun

theorem step_ne_refused (s : State) (r : Refusal) : step s ≠ .refused r := by
  cases hw : s.wait.active with
  | true => simp [step_of_suspended hw]
  | false =>
    cases hf : s.fetchInstr with
    | error e => simp [step_of_fetch_error hw hf]
    | ok i => simpa [step_of_fetch_ok hw hf] using exec_ne_refused i s.advance r

/-- A step answers a next state or an error. -/
theorem step_completes_or_faults (s : State) :
    (∃ t, step s = .next t) ∨ ∃ e, step s = .fault e := by
  cases h : step s with
  | next t => exact .inl ⟨t, rfl⟩
  | fault e => exact .inr ⟨e, rfl⟩
  | refused r => exact absurd h (step_ne_refused s r)

/-- A completing step changed nothing, or completed the instruction it fetched. -/
theorem step_next_fetch (h : step s = .next t) :
    t = s ∨ ∃ i, s.fetchInstr = .ok i ∧ exec i s.advance = .next t := by
  obtain ⟨-, rfl⟩ | ⟨-, hpc, i, hd, hexec⟩ := step_next h
  · exact .inl rfl
  · exact .inr ⟨i, s.fetchInstr_ok.2 ⟨hpc, hd⟩, hexec⟩

/-- Settles O12: a suspended step changes nothing, and a running one has the frame of the instruction
it fetched. -/
theorem stepNeverTouchesForeignParts : Obligations.StepNeverTouchesForeignParts := by
  refine ⟨fun s t h => ?_, step_completes_or_faults⟩
  obtain rfl | ⟨i, hf, hexec⟩ := step_next_fetch h
  · simp
  have hframe : Frame i.regsWritten i.partsWritten s.advance t := exec_frame hexec
  refine ⟨hframe.ST_eq (ST_notMem_partsWritten i), fun hs => ?_, fun hDT => ?_, fun hwait => ?_,
    fun hFB => ?_⟩
  · exact (exec_next_redraw hexec).elim (·.trans hs) id
  · obtain ⟨x, rfl⟩ := DT_mem_partsWritten.1 (not_imp_comm.1 hframe.DT_eq hDT)
    exact ⟨x, hf⟩
  · obtain ⟨x, rfl, -⟩ := (exec_next_wait hexec).resolve_left hwait
    exact ⟨x, hf⟩
  · obtain rfl | ⟨x, y, n, rfl⟩ := FB_mem_partsWritten.1 (not_imp_comm.1 hframe.FB_eq hFB)
    · exact .inl hf
    · exact .inr ⟨x, y, n, hf⟩

/-! ### The random byte -/

theorem setRnd_putFlagged (s : State) (x : RegIdx) (r : Flagged) :
    (s.setRnd b).putFlagged x r = (s.putFlagged x r).setRnd b := by
  rw [State.putFlagged, State.putFlagged, s.setRnd_cfg]
  cases s.cfg.vfOrder <;> rfl

theorem setRnd_loadRegs (s : State) (base k : Nat) :
    (s.setRnd b).loadRegs base k = (s.loadRegs base k).setRnd b := by
  induction k with
  | zero => rfl
  | succ k ih =>
    rw [State.loadRegs, ih]
    rfl

/-- An operation other than `RND` does the same whatever random byte is presented, and hands the byte
on. -/
theorem exec_setRnd (h : ∀ x kk, i ≠ .rnd x kk) :
    Agree (fun t t' => t' = t.setRnd b) (exec i s) (exec i (s.setRnd b)) := by
  cases i with
  | rnd x kk => exact absurd rfl (h x kk)
  | ret => exact agree_execRet rfl fun _ => rfl
  | call => exact agree_execCall rfl fun _ _ => rfl
  | se x kk => exact agree_next (apply_ite (State.setRnd · b) (s.getV x = kk) s.skip s).symm
  | sne x kk => exact agree_next (apply_ite (State.setRnd · b) (s.getV x ≠ kk) s.skip s).symm
  | addReg | sub | shr | subn | shl => exact agree_next (setRnd_putFlagged s _ _)
  | drw | stBlock | ldB => exact agree_withRun rfl rfl
  | ldBlock => exact agree_withRun rfl (setRnd_loadRegs s _ _)
  | _ => exact agree_next rfl

/-- A step that does not fetch `RND` does the same whatever random byte is presented: the suspension
check and the fetch do not read it either. -/
theorem step_setRnd (h : ∀ x kk, s.fetchInstr ≠ .ok (.rnd x kk)) :
    Agree (fun t t' => t' = t.setRnd b) (step s) (step (s.setRnd b)) := by
  cases hw : s.wait.active with
  | true =>
    rw [step_of_suspended hw, step_of_suspended (s := s.setRnd b) hw]
    exact agree_next rfl
  | false =>
    have hfetch : (s.setRnd b).fetchInstr = s.fetchInstr := rfl
    cases hf : s.fetchInstr with
    | error e =>
      rw [step_of_fetch_error hw hf, step_of_fetch_error (s := s.setRnd b) hw (hfetch.trans hf)]
      rfl
    | ok i =>
      rw [step_of_fetch_ok hw hf, step_of_fetch_ok (s := s.setRnd b) hw (hfetch.trans hf)]
      exact exec_setRnd (s := s.advance) fun x kk hi => h x kk (hi ▸ hf)

/-- Settles O16: the agreement of the two steps, read at each outcome. -/
theorem onlyRndDependsOnTheRandomByte : Obligations.OnlyRndDependsOnTheRandomByte := by
  intro s b h
  have hagree := step_setRnd (b := b) h
  cases hstep : step s with
  | next t =>
    rw [hstep] at hagree
    obtain ⟨t', ht', rfl⟩ := hagree
    exact ht'
  | fault e | refused r =>
    rw [hstep] at hagree
    exact hagree

end Sys2Proof.Machine

/-! SUPPORT. Control flow (41_control_flow.md): jump and skips (O25, O28), the two stack operations at
every depth (O26, O27) and one after the other (O29), and the jump to its own address (O30). -/

namespace Sys2Proof.Machine

variable {s : State} {i : Instr}

/-! ### Jump and skips -/

@[simp] theorem addrOperand_toNat (addr : BitVec 12) : (addrOperand addr).toNat = addr.toNat :=
  BitVec.toNat_setWidth_of_le (by decide)

/-- Settles O25, by the only answer of a jump and its frame. -/
theorem jumpGoesToTheAddress : Obligations.JumpGoesToTheAddress :=
  fun addr _ => ⟨_, rfl, addrOperand_toNat addr, exec_frame (i := .jp addr) rfl⟩

/-- Settles O28, by the table of 10_state.md R26, which gives `SNE` the two targets in the other
order. -/
theorem skipsCompareWithTheImmediate : Obligations.SkipsCompareWithTheImmediate := by
  intro x kk s
  constructor
  · exact ⟨_, rfl, exec_next_pc (i := .se x kk) rfl, exec_frame (i := .se x kk) rfl⟩
  · have hpc := exec_next_pc (i := .sne x kk) (s := s) rfl
    exact ⟨_, rfl, hpc.trans (ite_not ..).symm, exec_frame (i := .sne x kk) rfl⟩

/-! ### The stack operations at every depth -/

theorem exec_call_of_lt (addr : BitVec 12) (h : s.sp.val < 16) :
    exec (.call addr) s = .next ((s.push h s.pc).setPc (addrOperand addr)) :=
  execCall_next.2 ⟨h, rfl⟩

theorem exec_call_of_full (addr : BitVec 12) (h : s.sp.val = 16) :
    exec (.call addr) s = .fault .stackOverflow :=
  dif_neg (by omega)

theorem exec_ret_of_pos (h : 1 ≤ s.sp.val) :
    exec .ret s = .next (s.pop.setPc (s.slot s.sp.val)) :=
  execRet_next.2 ⟨h, rfl⟩

theorem exec_ret_of_empty (h : s.sp.val = 0) : exec .ret s = .fault .stackUnderflow :=
  if_pos h

/-- Settles O26, by the laws of the push. -/
theorem callPushesTheReturnAddress : Obligations.CallPushesTheReturnAddress := by
  refine fun addr s => ⟨fun h => ?_, exec_call_of_full addr⟩
  have hcall := exec_call_of_lt addr h
  exact ⟨_, hcall, rfl, s.push_slot_top h s.pc, addrOperand_toNat addr,
    fun _ => s.push_slot_ne h s.pc, exec_frame hcall⟩

/-- Settles O27, by the laws of the pop. -/
theorem returnPopsTheTopSlot : Obligations.ReturnPopsTheTopSlot := by
  refine fun s => ⟨fun h => ?_, exec_ret_of_empty⟩
  have hret := exec_ret_of_pos h
  exact ⟨_, hret, rfl, Nat.sub_add_cancel h, exec_frame hret⟩

/-- Settles O29: the return reads the slot that the call pushed, and below it the call changed no
slot. -/
theorem returnUndoesCall : Obligations.ReturnUndoesCall := by
  intro addr s t u hcall hsp hS
  obtain ⟨h, rfl⟩ := execCall_next.1 hcall
  have hsp : u.sp.val = s.sp.val + 1 := congrArg Fin.val hsp
  have hslot : ∀ k, u.slot k = (s.push h s.pc).slot k := State.slot_congr hS
  refine ⟨_, exec_ret_of_pos (by omega), ?_, ?_, fun k h1 hk => ?_⟩
  · rw [State.setPc_pc, hslot, hsp, State.push_slot_top]
  · simp [hsp]
  · rw [State.setPc_slot, State.pop_slot, hslot, s.push_slot_ne h s.pc h1 (by omega)]

/-! ### The jump to its own address -/

/-- A running core runs the instruction whose word it fetches. -/
theorem step_of_fetchWord_encodeWord (hw : s.wait.active = false) (hpc : s.pc.toNat ≤ 4094)
    (hword : s.fetchWord = encodeWord i) : step s = exec i s.advance :=
  step_of_fetch_ok hw (s.fetchInstr_ok.2 ⟨hpc, hword ▸ decodeWord_encodeWord i⟩)

/-- Settles O30: the fetched word is the jump to `pc`, which puts back the `pc` that the fetch
advanced. -/
theorem selfJumpIsAFixedPoint : Obligations.SelfJumpIsAFixedPoint := by
  intro s hw hpc hbytes
  have haddr : (s.pc.setWidth 12).toNat = s.pc.toNat := by
    rw [BitVec.toNat_setWidth, Nat.mod_eq_of_lt (by omega)]
  have hword : s.fetchWord = encodeWord (.jp (s.pc.setWidth 12)) := by
    apply BitVec.eq_of_toNat_eq
    rw [s.fetchWord_toNat, hbytes, encodeWord, packNNN_toNat, haddr]
    rfl
  have htarget : addrOperand (s.pc.setWidth 12) = s.pc :=
    BitVec.eq_of_toNat_eq ((addrOperand_toNat _).trans haddr)
  calc step s
      = .next (s.advance.setPc (addrOperand (s.pc.setWidth 12))) :=
        step_of_fetchWord_encodeWord hw hpc hword
    _ = .next s := by
        rw [htarget]
        rfl

end Sys2Proof.Machine

/-! SUPPORT. Registers and arithmetic (42_alu.md): the moves and the operations without a flag (O31,
O32, O38), the flag-writing operations with another destination than `VF` (O33 to O35) and with `VF`
(O36, O60), and where the order of their two writes matters (O37). -/

namespace Sys2Proof.Machine

variable {s : State} {i : Instr} {x : RegIdx} {o : Config.VFOrder}

/-! ### Where the order of the two writes matters -/

theorem State.setV_comm (s : State) {q : RegIdx} (h : x ≠ q) (b c : Byte) :
    (s.setV x b).setV q c = (s.setV q c).setV x b := by
  have hV : (s.V.set x b).set q c = (s.V.set q c).set x b :=
    Vector.set_comm b c (Fin.val_ne_of_ne h)
  simp only [State.setV, hV]

/-- With a destination other than `VF` the two writes commute. -/
theorem writeFlagged_order (h : x ≠ VF) (s : State) (o o' : Config.VFOrder) (r : Flagged) :
    s.writeFlagged o x r = s.writeFlagged o' x r := by
  have hcomm := s.setV_comm h r.result r.flag
  cases o <;> cases o'
  · rfl
  · exact hcomm
  · exact hcomm.symm
  · rfl

theorem withOrder_putFlagged (h : x ≠ VF) (s : State) (r : Flagged) :
    (s.withOrder o).putFlagged x r = (s.putFlagged x r).withOrder o :=
  calc (s.withOrder o).writeFlagged o x r
      = (s.writeFlagged o x r).withOrder o := by cases o <;> rfl
    _ = (s.writeFlagged s.cfg.vfOrder x r).withOrder o := by rw [writeFlagged_order h s o]

theorem withOrder_loadRegs (s : State) (base k : Nat) :
    (s.withOrder o).loadRegs base k = (s.loadRegs base k).withOrder o := by
  induction k with
  | zero => rfl
  | succ k ih =>
    rw [State.loadRegs, ih]
    rfl

/-- Only a flag-writing operation with destination `VF` depends on the order: no other reads the
parameter, and with another destination the two writes commute. -/
theorem exec_withOrder (h : ∀ y, i ≠ .addReg VF y ∧ i ≠ .sub VF y ∧ i ≠ .subn VF y)
    (hshr : i ≠ .shr VF) (hshl : i ≠ .shl VF) :
    Agree (fun t t' => t' = t.withOrder o) (exec i s) (exec i (s.withOrder o)) := by
  cases i with
  | ret => exact agree_execRet rfl fun _ => rfl
  | call => exact agree_execCall rfl fun _ _ => rfl
  | se x kk => exact agree_next (apply_ite (State.withOrder · o) (s.getV x = kk) s.skip s).symm
  | sne x kk => exact agree_next (apply_ite (State.withOrder · o) (s.getV x ≠ kk) s.skip s).symm
  | addReg x y | sub x y | subn x y =>
    have hx : x ≠ VF := by
      rintro rfl
      simpa using h y
    exact agree_next (withOrder_putFlagged hx s _)
  | shr x | shl x =>
    have hx : x ≠ VF := by
      rintro rfl
      contradiction
    exact agree_next (withOrder_putFlagged hx s _)
  | drw | stBlock | ldB => exact agree_withRun rfl rfl
  | ldBlock => exact agree_withRun rfl (withOrder_loadRegs s _ _)
  | _ => exact agree_next rfl

/-! ### What a flagged write leaves in its destination and in `VF` -/

/-- The result is in the destination, unless the flag is written over it. -/
theorem State.getV_putFlagged_dest (s : State) (r : Flagged)
    (h : x = VF → s.cfg.vfOrder = .resultLast) : (s.putFlagged x r).getV x = r.result := by
  rw [State.getV_putFlagged, if_neg, if_pos rfl]
  rintro ⟨hx, hflag⟩
  exact absurd ((h hx).symm.trans (hflag hx)) (by decide)

/-- The flag is in `VF`, unless the result is written over it. -/
theorem State.getV_putFlagged_VF (s : State) (r : Flagged)
    (h : x = VF → s.cfg.vfOrder = .flagLast) : (s.putFlagged x r).getV VF = r.flag := by
  rw [State.getV_putFlagged, if_pos ⟨rfl, h⟩]

theorem frame_putFlagged_VF (s : State) (r : Flagged) : Frame [VF] [] s (s.putFlagged VF r) :=
  frame_of_regs (s.putFlagged_eq VF r) fun q hq => by simp_all [State.getV_putFlagged]

/-- Settles O37: the agreement under the two orders, read at each outcome, and the laws of the flagged
write. -/
theorem vfOrderMattersOnlyForVF : Obligations.VFOrderMattersOnlyForVF := by
  refine ⟨fun i s o h hshr hshl => ?_, fun x q r s => ⟨?_, ?_, ?_, ?_⟩⟩
  · have hagree := exec_withOrder (s := s) (o := o) h hshr hshl
    cases hexec : exec i s with
    | next t =>
      rw [hexec] at hagree
      obtain ⟨t', ht', rfl⟩ := hagree
      exact ht'
    | fault | refused =>
      rw [hexec] at hagree
      exact hagree
  · exact fun hx => writeFlagged_order hx s .flagLast .resultLast r
  · exact State.getV_setV_self _ VF r.flag
  · exact State.getV_setV_self _ VF r.result
  · intro hx hVF
    rw [State.getV_writeFlagged, if_neg (hVF ·.1), if_neg hx]

/-! ### Results and flags as numbers -/

theorem flagByte_decide (p : Prop) [Decidable p] : flagByte (decide p) = if p then 1 else 0 := by
  simp [flagByte]

theorem flagByte_toNat (b : Bool) : (flagByte b).toNat = b.toNat := by
  cases b <;> rfl

section
variable (a b : Byte)

theorem addFlagged_result_toNat : (addFlagged a b).result.toNat = (a.toNat + b.toNat) % 256 :=
  BitVec.toNat_add a b

theorem addFlagged_flag :
    (addFlagged a b).flag = if 255 < a.toNat + b.toNat then 1 else 0 :=
  flagByte_decide _

theorem subFlagged_result_toNat :
    ((subFlagged a b).result.toNat : Int) = (a.toNat - b.toNat : Int) % 256 := by
  have hsub : (subFlagged a b).result.toNat = (256 - b.toNat + a.toNat) % 256 := BitVec.toNat_sub a b
  omega

theorem subFlagged_flag : (subFlagged a b).flag = if b.toNat ≤ a.toNat then 1 else 0 :=
  flagByte_decide _

theorem shrFlagged_result_toNat : (shrFlagged a).result.toNat = a.toNat / 2 := by
  simp [shrFlagged, Nat.shiftRight_eq_div_pow]

theorem shrFlagged_flag_toNat : (shrFlagged a).flag.toNat = a.toNat % 2 := by
  rw [shrFlagged, flagByte_toNat, BitVec.getLsbD, Nat.toNat_testBit, pow_zero, Nat.div_one]

theorem shlFlagged_result_toNat : (shlFlagged a).result.toNat = a.toNat * 2 % 256 := by
  simp [shlFlagged, Nat.shiftLeft_eq]

/-- A byte is below 256, so its top bit is what is left of a division by 128. -/
theorem shlFlagged_flag_toNat : (shlFlagged a).flag.toNat = a.toNat / 128 := by
  have ha : a.toNat / 2 ^ 7 < 2 := by omega
  rw [shlFlagged, flagByte_toNat, BitVec.getLsbD, Nat.toNat_testBit, Nat.mod_eq_of_lt ha]
  rfl

end

/-! ### The flag-writing operations with another destination than `VF` -/

/-- Settles O33: the two writes go to two registers, so both the sum and the carry are left. -/
theorem addSetsCarry : Obligations.AddSetsCarry := by
  intro x y s hx
  refine ⟨_, rfl, ?_, ?_, frame_putFlagged s x _⟩
  · rw [s.getV_putFlagged_dest _ (absurd · hx), addFlagged_result_toNat]
  · rw [s.getV_putFlagged_VF _ (absurd · hx), addFlagged_flag]

/-- Settles O34: the difference and the not-borrow, `SUBN` with the operands exchanged. -/
theorem subtractionsSetNotBorrow : Obligations.SubtractionsSetNotBorrow := by
  intro x y s hx
  refine ⟨⟨_, rfl, ?_, ?_, frame_putFlagged s x _⟩, ⟨_, rfl, ?_, ?_, frame_putFlagged s x _⟩⟩
  · rw [s.getV_putFlagged_dest _ (absurd · hx), subFlagged_result_toNat]
  · rw [s.getV_putFlagged_VF _ (absurd · hx), subFlagged_flag]
  · rw [s.getV_putFlagged_dest _ (absurd · hx), subFlagged_result_toNat]
  · rw [s.getV_putFlagged_VF _ (absurd · hx), subFlagged_flag]

/-- Settles O35: the shifted byte and the bit shifted out, as quotients and remainders. -/
theorem shiftsSetTheBitShiftedOut : Obligations.ShiftsSetTheBitShiftedOut := by
  intro x s hx
  refine ⟨⟨_, rfl, ?_, ?_, frame_putFlagged s x _⟩, ⟨_, rfl, ?_, ?_, frame_putFlagged s x _⟩⟩
  · rw [s.getV_putFlagged_dest _ (absurd · hx), shrFlagged_result_toNat]
  · rw [s.getV_putFlagged_VF _ (absurd · hx), shrFlagged_flag_toNat]
  · rw [s.getV_putFlagged_dest _ (absurd · hx), shlFlagged_result_toNat]
  · rw [s.getV_putFlagged_VF _ (absurd · hx), shlFlagged_flag_toNat]

/-! ### The flag-writing operations with destination `VF` -/

/-- Settles O36: under `flag_last` the flag is in `VF`, whatever the destination. -/
theorem flagSurvivesInVF : Obligations.FlagSurvivesInVF := by
  intro y s horder
  have hflag (r : Flagged) : (s.putFlagged VF r).getV VF = r.flag :=
    s.getV_putFlagged_VF r fun _ => horder
  refine ⟨⟨_, rfl, frame_putFlagged_VF s _, ?_⟩, ⟨_, rfl, frame_putFlagged_VF s _, ?_⟩,
    ⟨_, rfl, frame_putFlagged_VF s _, ?_⟩, ⟨_, rfl, frame_putFlagged_VF s _, ?_⟩,
    ⟨_, rfl, frame_putFlagged_VF s _, ?_⟩⟩ <;> rw [hflag]
  · exact addFlagged_flag _ _
  · exact subFlagged_flag _ _
  · exact subFlagged_flag _ _
  · exact shrFlagged_flag_toNat _
  · exact shlFlagged_flag_toNat _

/-- Settles O60: under `result_last` the result is in the destination, `VF` too. -/
theorem resultSurvivesInVF : Obligations.ResultSurvivesInVF := by
  intro y s horder
  have hresult (r : Flagged) : (s.putFlagged VF r).getV VF = r.result :=
    s.getV_putFlagged_dest r fun _ => horder
  refine ⟨⟨_, rfl, frame_putFlagged_VF s _, ?_⟩, ⟨_, rfl, frame_putFlagged_VF s _, ?_⟩,
    ⟨_, rfl, frame_putFlagged_VF s _, ?_⟩, ⟨_, rfl, frame_putFlagged_VF s _, ?_⟩,
    ⟨_, rfl, frame_putFlagged_VF s _, ?_⟩⟩ <;> rw [hresult]
  · exact addFlagged_result_toNat _ _
  · exact subFlagged_result_toNat _ _
  · exact subFlagged_result_toNat _ _
  · exact shrFlagged_result_toNat _
  · exact shlFlagged_result_toNat _

/-! ### The operations without a flag -/

/-- Settles O31, by the laws of the register write. -/
theorem movesCopyTheirSource : Obligations.MovesCopyTheirSource := by
  intro x y kk s
  exact ⟨⟨_, rfl, s.getV_setV_self x _, frame_setV s x _⟩,
    ⟨_, rfl, s.getV_setV_self x _, frame_setV s x _⟩⟩

/-- Settles O32, by the laws of the register write and of the two byte operations. -/
theorem flaglessArithmetic : Obligations.FlaglessArithmetic := by
  intro x y kk s
  refine ⟨⟨_, rfl, ?_, frame_setV s x _⟩, ⟨_, rfl, fun k _ => ?_, frame_setV s x _⟩⟩
  · rw [State.getV_setV_self, BitVec.toNat_add]
  · rw [State.getV_setV_self, BitVec.getLsbD_xor]

/-- A frame that leaves the random input open is the same from whatever byte was presented. -/
theorem Frame.of_setRnd {regs : List RegIdx} {parts : List Part} {t : State} {b : Byte}
    (h : Frame regs parts (s.setRnd b) t) (hp : Part.random ∈ parts) : Frame regs parts s t := by
  obtain ⟨hV, hI, hpc, hsp, hS, hDT, hST, hwait, hFB, hredraw, hmem, -, hcfg⟩ := h
  exact ⟨hV, hI, hpc, hsp, hS, hDT, hST, hwait, hFB, hredraw, hmem, absurd hp, hcfg⟩

/-- Settles O38: the masked byte is the presented one. -/
theorem rndMasksThePresentedByte : Obligations.RndMasksThePresentedByte := by
  intro x kk b s
  have hframe := exec_frame (i := .rnd x kk) (s := s.setRnd b) rfl
  refine ⟨_, rfl, fun k _ => ?_, hframe.of_setRnd (by simp [Instr.partsWritten])⟩
  rw [State.getV_setV_self, BitVec.getLsbD_and, State.setRnd_rnd]

end Sys2Proof.Machine

/-! SUPPORT. Index register and memory (43_index_memory.md): the operations on `I` (O39, O40),
the two stores at `I` (O41, O43), and the block load, alone (O42) and after a block store (O44). -/

namespace Sys2Proof.Machine

variable {s t : State} {x : RegIdx}

/-! ### The operations on `I` -/

/-- `LD I,addr` has one word: it has no ignored field. -/
theorem decodeWord_eq_some_ldI {w : Word} {addr : BitVec 12} :
    decodeWord w = some (.ldI addr) ↔ packNNN 0xA addr = w :=
  decodeWord_eq_some.trans ⟨fun ⟨_, h⟩ => h, fun h => ⟨0, h⟩⟩

theorem packNNN_A_toNat (addr : BitVec 12) : (packNNN 0xA addr).toNat = 0xA000 + addr.toNat :=
  packNNN_toNat 0xA addr

/-- Settles O39: the operand is zero-extended, and the only word is `Annn`. -/
theorem loadIndexImmediate : Obligations.LoadIndexImmediate := by
  refine fun addr s =>
    ⟨⟨_, rfl, addrOperand_toNat addr, exec_frame (i := .ldI addr) rfl⟩, fun w => ?_⟩
  rw [decodeWord_eq_some_ldI, ← packNNN_A_toNat, ← BitVec.toNat_inj, eq_comm]

@[simp] theorem byteToWord_toNat (b : Byte) : (byteToWord b).toNat = b.toNat :=
  BitVec.toNat_setWidth_of_le (by decide)

/-- Settles O40: the sum of two words wraps, and five times a byte fits a word. -/
theorem indexArithmetic : Obligations.IndexArithmetic := by
  refine fun x s => ⟨⟨_, rfl, ?_, exec_frame (i := .addI x) rfl⟩,
    ⟨_, rfl, glyphAddr_toNat _, exec_frame (i := .ldF x) rfl⟩⟩
  rw [State.setI_I, BitVec.toNat_add, byteToWord_toNat]

/-! ### The bytes that a store at `I` writes and keeps -/

section
variable {bs : List Byte}

theorem State.byte_storeBytes_dataAddr (hb : s.dataAddr 0 + bs.length ≤ Config.memSize) {i : Nat}
    (hi : i < bs.length) : (s.storeBytes (s.dataAddr 0) bs).byte (s.dataAddr i) = bs[i] := by
  have hoff : s.dataAddr i - s.dataAddr 0 = i := Nat.add_sub_cancel_left ..
  rw [s.byte_storeBytes _ _ hb, if_pos (by simp [State.dataAddr, hi]), hoff,
    List.getElem?_eq_getElem hi, Option.getD_some]

theorem State.byte_storeBytes_ne_dataAddr (hb : s.dataAddr 0 + bs.length ≤ Config.memSize) {a : Nat}
    (ha : ∀ i, i < bs.length → a ≠ s.dataAddr i) :
    (s.storeBytes (s.dataAddr 0) bs).byte a = s.byte a := by
  rw [s.byte_storeBytes _ _ hb, if_neg]
  rintro ⟨hlo, hhi⟩
  exact ha (a - s.dataAddr 0) (by omega) (Nat.add_sub_cancel' hlo).symm

end

/-! ### The block store -/

/-- A block store keeps every byte it does not store to. -/
theorem exec_stBlock_byte_ne {a : Nat} (h : exec (.stBlock x) s = .next t)
    (ha : ∀ i, i ≤ x.val → a ≠ s.dataAddr i) : t.byte a = s.byte a := by
  obtain ⟨hrange, rfl⟩ := exec_stBlock_next.1 h
  have hlen : (s.firstRegs (blockLength x)).length = blockLength x := s.length_firstRegs x.isLt
  exact State.byte_storeBytes_ne_dataAddr (by rwa [hlen])
    fun i hi => ha i (Nat.le_of_lt_succ (hi.trans_eq hlen))

/-- Settles O41, by the laws of the block store. -/
theorem blockStoreIsInclusive : Obligations.BlockStoreIsInclusive := by
  refine fun x s => ⟨fun hin => ?_, fun hout => ?_⟩
  · have hst := exec_stBlock_next.2 ⟨Nat.succ_le_succ hin, rfl⟩
    exact ⟨_, hst, fun i => exec_stBlock_byte hst, fun a => exec_stBlock_byte_ne hst,
      exec_frame hst⟩
  · exact s.withRun_fault.2 ⟨⟨x.val.succ_pos, Nat.succ_lt_succ hout⟩, rfl⟩

/-! ### The block load -/

/-- A block load completes exactly if the whole run is in range. -/
theorem exec_ldBlock_next :
    exec (.ldBlock x) s = .next t ↔ s.I.toNat + blockLength x ≤ 4096 ∧
      t = s.loadRegs (s.dataAddr 0) (blockLength x) := by
  have hlen : blockLength x ≠ 0 := x.val.succ_ne_zero
  simp [exec, execLdBlock, State.withRun_next, hlen]

/-- After a block load, each loaded register holds the byte at its data address. -/
theorem exec_ldBlock_getV {i : RegIdx} (h : exec (.ldBlock x) s = .next t)
    (hi : i.val ≤ x.val) : t.getV i = s.byte (s.dataAddr i.val) := by
  obtain ⟨-, rfl⟩ := exec_ldBlock_next.1 h
  have hmem : i.val < blockLength x := Nat.lt_succ_of_le hi
  rw [s.getV_loadRegs _ (blockLength x) x.isLt, if_pos hmem]
  rfl

/-- Settles O42, by the laws of the block load. -/
theorem blockLoadIsInclusive : Obligations.BlockLoadIsInclusive := by
  refine fun x s => ⟨fun hin => ?_, fun hout => ?_⟩
  · have hld := exec_ldBlock_next.2 ⟨Nat.succ_le_succ hin, rfl⟩
    exact ⟨_, hld, fun i => exec_ldBlock_getV hld, exec_frame hld⟩
  · exact s.withRun_fault.2 ⟨⟨x.val.succ_pos, Nat.succ_lt_succ hout⟩, rfl⟩

/-- Settles O44: the load reads each register's data address, where the store put that register;
both runs are in range together, `I` being the same. -/
theorem blockLoadUndoesBlockStore : Obligations.BlockLoadUndoesBlockStore := by
  intro x s t u hst hI hmem hcfg
  have hrange : u.I.toNat + blockLength x ≤ 4096 := hI ▸ (exec_stBlock_next.1 hst).1
  have hld := exec_ldBlock_next.2 ⟨hrange, rfl⟩
  refine ⟨_, hld, fun i hi => ?_⟩
  rw [exec_ldBlock_getV hld hi, State.byte_congr hmem hcfg, State.dataAddr, hI]
  exact exec_stBlock_byte hst hi

/-! ### The decimal store -/

/-- A decimal store completes exactly if its three bytes are in range. -/
theorem exec_ldB_next :
    exec (.ldB x) s = .next t ↔ s.I.toNat + 3 ≤ 4096 ∧
      t = s.storeBytes (s.dataAddr 0) (decimalDigits (s.getV x)) := by
  simp [exec, execLdB, State.withRun_next]

/-- A decimal store keeps every byte it does not store to. -/
theorem exec_ldB_byte_ne {a : Nat} (h : exec (.ldB x) s = .next t)
    (ha : ∀ i, i ≤ 2 → a ≠ s.dataAddr i) : t.byte a = s.byte a := by
  obtain ⟨hrange, rfl⟩ := exec_ldB_next.1 h
  exact State.byte_storeBytes_ne_dataAddr (s := s) (bs := decimalDigits (s.getV x)) hrange
    fun i hi => ha i (Nat.le_of_lt_succ hi)

/-- The decimal digits of a byte as numbers: each of them fits a byte. -/
theorem map_toNat_decimalDigits (v : Byte) :
    (decimalDigits v).map BitVec.toNat = [v.toNat / 100, v.toNat / 10 % 10, v.toNat % 10] := by
  have hv := v.isLt
  simp [decimalDigits]
  omega

/-- A decimal store leaves the digits of the register at its data addresses, in order. -/
theorem exec_ldB_byte_toNat (h : exec (.ldB x) s = .next t) {i : Nat} (hi : i < 3) :
    (t.byte (s.dataAddr i)).toNat =
      [(s.getV x).toNat / 100, (s.getV x).toNat / 10 % 10, (s.getV x).toNat % 10][i] := by
  obtain ⟨hrange, rfl⟩ := exec_ldB_next.1 h
  rw [State.byte_storeBytes_dataAddr (s := s) (bs := decimalDigits (s.getV x)) hrange hi]
  exact (List.getElem_map BitVec.toNat).symm.trans
    (List.getElem_of_eq (map_toNat_decimalDigits _) hi)

/-- Settles O43, by the laws of the decimal store. -/
theorem decimalStoreWritesThreeDigits : Obligations.DecimalStoreWritesThreeDigits := by
  refine fun x s => ⟨fun hin => ?_, fun hout => ?_⟩
  · have hst := exec_ldB_next (x := x).2 ⟨Nat.succ_le_succ hin, rfl⟩
    have hdigit {i : Nat} (hi : i < 3) := exec_ldB_byte_toNat hst hi
    exact ⟨_, hst, hdigit (i := 0) (by decide), hdigit (i := 1) (by decide),
      hdigit (i := 2) (by decide), fun a => exec_ldB_byte_ne hst, exec_frame hst⟩
  · exact s.withRun_fault.2 ⟨⟨by decide, Nat.succ_lt_succ hout⟩, rfl⟩

end Sys2Proof.Machine

/-! SUPPORT. Display (44_display.md): the clear (O47), the sprite draw in closed form (O48), and the
same draw twice (O49). -/

namespace Sys2Proof.Machine

variable {s t : State} {x y : RegIdx} {n : Fin 16}

/-! ### The clear -/

/-- `CLS` has one word: it has no operand and no ignored field. -/
theorem decodeWord_eq_some_cls {w : Word} : decodeWord w = some .cls ↔ 0x00E0 = w :=
  decodeWord_eq_some.trans ⟨fun ⟨_, h⟩ => h, fun h => ⟨0, h⟩⟩

/-- Settles O47: the framebuffer becomes the blank one, and the encoding is the only word. -/
theorem clsClearsTheScreen : Obligations.ClsClearsTheScreen :=
  ⟨fun _ => ⟨_, rfl, Framebuffer.cell_blank, rfl, exec_frame (i := .cls) rfl⟩,
    fun _ => decodeWord_eq_some_cls.trans eq_comm⟩

/-! ### What a blit does, as the set of cells it flips -/

/-- From `d` to `d'` exactly the cells of `p` are flipped, and a collision is reported if it was
before or one of those cells was lit. -/
structure Blit.Flips (p : Nat → Nat → Bool) (d d' : Blit) : Prop where
  cell : ∀ px py, px < 64 → py < 32 →
    Framebuffer.cell d'.fb px py = (Framebuffer.cell d.fb px py != p px py)
  collision : d'.collision = true ↔ d.collision = true ∨
    ∃ px py, px < 64 ∧ py < 32 ∧ Framebuffer.cell d.fb px py = true ∧ p px py = true

/-- Two blits without a common cell: the second finds its cells as the first did. -/
theorem Blit.Flips.trans {p q : Nat → Nat → Bool} {d d' d'' : Blit} (hp : Blit.Flips p d d')
    (hq : Blit.Flips q d' d'') (hpq : ∀ px py, q px py = true → p px py = false) :
    Blit.Flips (fun px py => p px py || q px py) d d'' := by
  obtain ⟨hcell, hcoll⟩ := hp
  obtain ⟨hcell', hcoll'⟩ := hq
  constructor
  · intro px py hx hy
    rw [hcell' px py hx hy, hcell px py hx hy]
    cases hbit : q px py with
    | false => simp
    | true => simp [hpq px py hbit]
  · have hlit : (∃ px py, px < 64 ∧ py < 32 ∧ Framebuffer.cell d'.fb px py = true ∧
          q px py = true) ↔
        ∃ px py, px < 64 ∧ py < 32 ∧ Framebuffer.cell d.fb px py = true ∧ q px py = true := by
      refine exists₂_congr fun px py => and_congr_right fun hx => and_congr_right fun hy =>
        and_congr_left fun hq => ?_
      rw [hcell px py hx hy, hpq px py hq, Bool.bne_false]
    rw [hcoll', hcoll, hlit, or_assoc]
    simp only [Bool.or_eq_true, and_or_left, exists_or]

/-- Column `px` lies under a set bit of the sprite row `b` drawn at column `x0`. -/
def rowBit (x0 : Nat) (b : Byte) (px : Nat) : Bool :=
  decide ((px + 64 - x0 % 64) % 64 < 8) && b.getLsbD (7 - (px + 64 - x0 % 64) % 64)

/-- The columns wrap: the distance to the origin modulo 64 is the number of the sprite bit. -/
theorem eq_blitColumn_iff {x0 k px : Nat} (hk : k < 8) (hx : px < 64) :
    px = blitColumn x0 k ↔ (px + 64 - x0 % 64) % 64 = k := by
  unfold blitColumn
  omega

theorem rowBit_eq_true {x0 px : Nat} {b : Byte} (hx : px < 64) :
    rowBit x0 b px = true ↔ ∃ k, k < 8 ∧ px = blitColumn x0 k ∧ b.getLsbD (7 - k) = true := by
  simp only [rowBit, Bool.and_eq_true, decide_eq_true_eq]
  constructor
  · exact fun ⟨hk, hb⟩ => ⟨_, hk, (eq_blitColumn_iff hk hx).2 rfl, hb⟩
  · rintro ⟨k, hk, hpx, hb⟩
    rw [(eq_blitColumn_iff hk hx).1 hpx]
    exact ⟨hk, hb⟩

theorem any_spriteBits {f : Nat → Bool} :
    [0, 1, 2, 3, 4, 5, 6, 7].any f = true ↔ ∃ k, k < 8 ∧ f k = true := by
  have hrange : [0, 1, 2, 3, 4, 5, 6, 7] = List.range 8 := rfl
  simp only [hrange, List.any_eq_true, List.mem_range]

/-- A sprite row flips the cells under its set bits, if it is a row of the screen. -/
theorem Blit.row_flips (x0 yy : Nat) (b : Byte) (d : Blit) :
    Blit.Flips (fun px py => decide (py = yy) && rowBit x0 b px) d (Blit.row x0 yy b d) := by
  obtain ⟨hcell, hcoll⟩ := Blit.row_spec x0 yy b d
  constructor
  · intro px py hx hy
    rw [hcell]
    congr 1
    rw [Bool.eq_iff_iff, Bool.and_eq_true, any_spriteBits, Bool.and_eq_true, rowBit_eq_true hx]
    simp only [Bool.and_eq_true, decide_eq_true_eq]
    constructor
    · rintro ⟨-, k, hk, hb, hpx, hpy⟩
      exact ⟨hpy, k, hk, hpx, hb⟩
    · rintro ⟨rfl, k, hk, hpx, hb⟩
      exact ⟨Nat.le_of_lt_succ hy, k, hk, hb, hpx, rfl⟩
  · rw [hcoll, Bool.or_eq_true, Bool.and_eq_true, any_spriteBits]
    refine or_congr_right ⟨?_, ?_⟩
    · rintro ⟨hyy, k, hk, h⟩
      obtain ⟨hb, hlit⟩ := Bool.and_eq_true_iff.1 h
      have hx := blitColumn_lt x0 k
      exact ⟨_, yy, hx, Nat.lt_succ_of_le (of_decide_eq_true hyy), hlit,
        by simpa using (rowBit_eq_true hx).2 ⟨k, hk, rfl, hb⟩⟩
    · rintro ⟨px, py, hx, hy, hlit, h⟩
      obtain ⟨hpy, hbit⟩ := Bool.and_eq_true_iff.1 h
      obtain rfl := of_decide_eq_true hpy
      obtain ⟨k, hk, rfl, hb⟩ := (rowBit_eq_true hx).1 hbit
      exact ⟨decide_eq_true (Nat.le_of_lt_succ hy), k, hk, by rw [hb, hlit]; rfl⟩

/-- The cell `(px, py)` lies under a set bit of the `k` sprite rows at address `base` drawn at the
origin `(x0, y0)`: `spriteBit` from any address. -/
def runBit (s : State) (base x0 y0 k px py : Nat) : Bool :=
  decide (y0 ≤ py) && decide (py < y0 + k) && rowBit x0 (s.byte (base + (py - y0))) px

theorem spriteBit_eq_runBit (s : State) (x0 y0 k : Nat) :
    spriteBit s x0 y0 k = runBit s (s.dataAddr 0) x0 y0 k := by
  funext px py
  simp [spriteBit, runBit, rowBit, State.dataAddr, Bool.and_assoc]

/-- A run of rows is its first row and the run of the others, one screen row lower. -/
theorem runBit_succ (s : State) (base x0 y0 k px py : Nat) :
    runBit s base x0 y0 (k + 1) px py =
      (decide (py = y0) && rowBit x0 (s.byte base) px ||
        runBit s (base + 1) x0 (y0 + 1) k px py) := by
  unfold runBit
  by_cases hpy : py = y0
  · simp [hpy]
  · by_cases hlow : y0 + 1 ≤ py
    · have haddr : base + (py - y0) = base + 1 + (py - (y0 + 1)) := by omega
      have hend : py < y0 + (k + 1) ↔ py < y0 + 1 + k := by omega
      simp [hpy, hlow, haddr, hend, Nat.le_of_succ_le hlow]
    · have hlow' : ¬ y0 ≤ py := by omega
      simp [hpy, hlow, hlow']

/-- The rows of a sprite flip the cells under its set bits: they are on different screen rows. -/
theorem Blit.rows_flips (s : State) (base x0 y0 k : Nat) (d : Blit) :
    Blit.Flips (runBit s base x0 y0 k) d (Blit.rows x0 y0 (s.bytesAt base k) d) := by
  induction k generalizing base y0 d with
  | zero =>
    have hnone (px py : Nat) : runBit s base x0 y0 0 px py = false := by
      simp [runBit]
    have hrows : Blit.rows x0 y0 (s.bytesAt base 0) d = d := rfl
    constructor <;> simp [hnone, hrows]
  | succ k ih =>
    rw [funext₂ (runBit_succ s base x0 y0 k)]
    refine (Blit.row_flips x0 y0 (s.byte base) d).trans (ih (base + 1) (y0 + 1) _) fun px py h => ?_
    have hpy : py ≠ y0 := by
      simp only [runBit, Bool.and_eq_true, decide_eq_true_eq] at h
      omega
    simp [hpy]

/-! ### The draw -/

/-- The draw of an instruction flips the cells of `spriteBit`. -/
theorem State.draw_flips (s : State) (x y : RegIdx) (k : Nat) :
    Blit.Flips (spriteBit s (s.getV x).toNat (s.getV y).toNat k) ⟨s.FB, false⟩ (s.draw x y k) := by
  rw [spriteBit_eq_runBit]
  exact Blit.rows_flips s _ _ _ k _

/-- A draw completes exactly if there is no row or the whole run is in range. -/
theorem exec_drw_next :
    exec (.drw x y n) s = .next t ↔ (n.val = 0 ∨ s.I.toNat + n.val ≤ 4096) ∧
      t = ((s.setFB (s.draw x y n.val).fb).setV VF
        (flagByte (s.draw x y n.val).collision)).setRedraw true :=
  s.withRun_next

/-- A draw flips exactly the cells under a set bit of the sprite. -/
theorem exec_drw_cell (h : exec (.drw x y n) s = .next t) {px py : Nat} (hx : px < 64)
    (hy : py < 32) : Framebuffer.cell t.FB px py = (Framebuffer.cell s.FB px py !=
      spriteBit s (s.getV x).toNat (s.getV y).toNat n.val px py) := by
  obtain ⟨-, rfl⟩ := exec_drw_next.1 h
  exact (s.draw_flips x y n.val).cell px py hx hy

/-- A draw leaves a flag in `VF`: the collision. -/
theorem exec_drw_VF (h : exec (.drw x y n) s = .next t) :
    t.getV VF = flagByte (s.draw x y n.val).collision := by
  obtain ⟨-, rfl⟩ := exec_drw_next.1 h
  simp

theorem flagByte_eq_one {b : Bool} : flagByte b = 1 ↔ b = true := by
  cases b <;> decide

theorem flagByte_eq_one_or_zero (b : Bool) : flagByte b = 1 ∨ flagByte b = 0 := by
  cases b <;> decide

theorem exec_drw_VF_eq_one_or_zero (h : exec (.drw x y n) s = .next t) :
    t.getV VF = 1 ∨ t.getV VF = 0 :=
  exec_drw_VF h ▸ flagByte_eq_one_or_zero _

/-- A draw reports a collision exactly if a lit cell lies under a set bit of the sprite. -/
theorem exec_drw_VF_eq_one (h : exec (.drw x y n) s = .next t) :
    t.getV VF = 1 ↔ ∃ px py, px < 64 ∧ py < 32 ∧ Framebuffer.cell s.FB px py = true ∧
      spriteBit s (s.getV x).toNat (s.getV y).toNat n.val px py = true := by
  rw [exec_drw_VF h, flagByte_eq_one, (s.draw_flips x y n.val).collision]
  simp

/-- Settles O48, by the laws of a completing draw and of the run that leaves memory. -/
theorem drawXorsTheSprite : Obligations.DrawXorsTheSprite := by
  refine fun x y n s => ⟨fun hin => ?_, fun hn hout => ?_⟩
  · have hrange : n.val = 0 ∨ s.I.toNat + n.val ≤ 4096 := hin.imp_right (by omega)
    have hdrw := exec_drw_next (x := x) (y := y).2 ⟨hrange, rfl⟩
    exact ⟨_, hdrw, fun px py => exec_drw_cell hdrw, exec_drw_VF_eq_one_or_zero hdrw,
      exec_drw_VF_eq_one hdrw, rfl, exec_frame hdrw⟩
  · exact s.withRun_fault.2 ⟨⟨hn, by omega⟩, rfl⟩

/-! ### The same draw twice -/

/-- A draw completes again after it: `I` is the same. -/
theorem exists_exec_drw_again (h : exec (.drw x y n) s = .next t) :
    ∃ v, exec (.drw x y n) (t.withV s.V) = .next v := by
  obtain ⟨hin, rfl⟩ := exec_drw_next.1 h
  exact ⟨_, exec_drw_next.2 ⟨hin, rfl⟩⟩

/-- After a draw, with the registers it had, the sprite covers the same cells. -/
theorem spriteBit_after_drw (h : exec (.drw x y n) s = .next t) :
    spriteBit (t.withV s.V) = spriteBit s := by
  obtain ⟨-, rfl⟩ := exec_drw_next.1 h
  rfl

/-- A framebuffer that is not blank has a lit cell. -/
theorem Framebuffer.exists_cell_of_ne_blank {fb : Framebuffer} (h : fb ≠ Framebuffer.blank) :
    ∃ px py, px < 64 ∧ py < 32 ∧ Framebuffer.cell fb px py = true := by
  by_contra hdark
  refine h (Framebuffer.ext_cell fun px py hx hy => ?_)
  rw [Framebuffer.cell_blank, Bool.eq_false_iff]
  exact fun hlit => hdark ⟨px, py, hx, hy, hlit⟩

/-- A draw onto the blank screen reports no collision. -/
theorem exec_drw_VF_of_blank (h : exec (.drw x y n) s = .next t)
    (hblank : s.FB = Framebuffer.blank) : t.getV VF = 0 := by
  refine (exec_drw_VF_eq_one_or_zero h).resolve_left fun hVF => ?_
  obtain ⟨px, py, -, -, hlit, -⟩ := (exec_drw_VF_eq_one h).1 hVF
  rw [hblank, Framebuffer.cell_blank] at hlit
  cases hlit

/-- Settles O49: the second draw flips the same cells back, and a cell that the first lit on the
blank screen lies under the sprite. -/
theorem drawTwiceIsIdentity : Obligations.DrawTwiceIsIdentity := by
  intro x y n s t h
  obtain ⟨v, hv⟩ := exists_exec_drw_again h
  have hcell {px py : Nat} (hx : px < 64) (hy : py < 32) := exec_drw_cell h hx hy
  have hsprite := spriteBit_after_drw h
  refine ⟨v, hv, Framebuffer.ext_cell fun px py hx hy => ?_, fun hblank =>
    ⟨exec_drw_VF_of_blank h hblank, fun hne => ?_⟩⟩
  · calc Framebuffer.cell v.FB px py
        = (Framebuffer.cell t.FB px py !=
            spriteBit s (s.getV x).toNat (s.getV y).toNat n.val px py) := by
          rw [exec_drw_cell hv hx hy, hsprite]
          rfl
      _ = Framebuffer.cell s.FB px py := by simp [hcell hx hy]
  · obtain ⟨px, py, hx, hy, hlit⟩ := Framebuffer.exists_cell_of_ne_blank hne
    refine (exec_drw_VF_eq_one hv).2 ⟨px, py, hx, hy, hlit, ?_⟩
    have hbit := hcell hx hy
    rw [hlit, hblank, Framebuffer.cell_blank, Bool.false_bne] at hbit
    rw [hsprite]
    exact hbit.symm

end Sys2Proof.Machine

/-! SUPPORT. Key wait and delay timer (45_key_timer.md): the timer's load (O50), and the wait from
the operation through the suspended steps to the delivery (O51). -/

namespace Sys2Proof.Machine

variable {s t u : State} {regs regs' : List RegIdx} {parts parts' : List Part}

/-- Settles O50: the operation's row of the frame table is its frame. -/
theorem loadDelayTimer : Obligations.LoadDelayTimer :=
  fun x _ => ⟨_, rfl, rfl, exec_frame (i := .ldDT x) rfl⟩

/-! ### Frames, widened and composed -/

/-- What may change may be said too generously. -/
theorem Frame.mono (h : Frame regs parts s t) (hr : regs ⊆ regs') (hp : parts ⊆ parts') :
    Frame regs' parts' s t := by
  obtain ⟨hV, hI, hpc, hsp, hS, hDT, hST, hwait, hFB, hredraw, hmem, hrandom, hcfg⟩ := h
  have hn {p : Part} : p ∉ parts' → p ∉ parts := mt fun hin => hp hin
  exact ⟨fun r h => hV r fun hin => h (hr hin), hI ∘ hn, hpc ∘ hn, hsp ∘ hn, hS ∘ hn, hDT ∘ hn,
    hST ∘ hn, hwait ∘ hn, hFB ∘ hn, hredraw ∘ hn, hmem ∘ hn, hrandom ∘ hn, hcfg⟩

/-- Two runs, one after the other, change at most what either may. -/
theorem Frame.trans (h : Frame regs parts s t) (h' : Frame regs' parts' t u) :
    Frame (regs ++ regs') (parts ++ parts') s u := by
  simp only [Frame, List.mem_append, not_or] at h h' ⊢
  simp +contextual [h, h']

/-! ### The wait -/

theorem frame_setRnd (s : State) (b : Byte) : Frame [] [.random] s (s.setRnd b) := by
  simp [Frame]

/-- Of any number of suspended steps only the last presented byte is seen afterwards (R121). -/
theorem transactAll_step_of_suspended (bytes : List Byte) (h : s.wait.active = true) :
    transactAll (bytes.map .step) s = s.setRnd (bytes.getLastD s.rnd) := by
  induction bytes generalizing s with
  | nil => rfl
  | cons b bs ih =>
    have hb : (transact (.step b) s).state = s.setRnd b := by
      rw [transact, stepWith_of_suspended h, hostResult]
    rw [List.map_cons, transactAll, hb, ih (s := s.setRnd b) h, List.getLastD_cons]
    rfl

theorem frame_deliverKey (key : BitVec 4) (h : s.wait.active = true) :
    Frame [s.wait.reg] [.wait] s (deliverKey key s) := by
  rw [deliverKey_of_waiting key h]
  simp +contextual [Frame]

/-- The key delivered while waiting is the value of the awaited register (R244). -/
theorem deliverKey_getV_toNat (key : BitVec 4) (h : s.wait.active = true) :
    ((deliverKey key s).getV s.wait.reg).toNat = key.toNat := by
  rw [deliverKey_of_waiting key h, State.setWait_getV, State.getV_setV_self, keyToByte_toNat]

theorem deliverKey_ends_wait (key : BitVec 4) (h : s.wait.active = true) :
    (deliverKey key s).wait.active = false := by
  rw [deliverKey_of_waiting key h, State.setWait_wait]

/-- Settles O51: the frames of the operation, of the suspended steps and of the delivery, one after
the other. -/
theorem keyWaitHoldsUntilDelivery : Obligations.KeyWaitHoldsUntilDelivery := by
  intro x s
  have hset : Frame [] [.wait] s (s.setWait ⟨true, x⟩) := exec_frame (i := .ldKey x) rfl
  refine ⟨_, rfl, rfl, hset, ?_⟩
  rintro bytes key u _ hu rfl
  rw [transactAll_step_of_suspended bytes rfl] at hu
  have hsteps : Frame [] [.random] (s.setWait ⟨true, x⟩) u := hu ▸ frame_setRnd _ _
  have hwait : u.wait = ⟨true, x⟩ := hsteps.wait_eq (by simp)
  have hactive : u.wait.active = true := by rw [hwait]
  have hkey := deliverKey_getV_toNat key hactive
  have hdeliver := frame_deliverKey key hactive
  rw [hwait] at hkey hdeliver
  exact ⟨hsteps, hkey, deliverKey_ends_wait key hactive,
    ((hset.trans hsteps).trans hdeliver).mono (by simp) (by simp)⟩

end Sys2Proof.Machine

/-! SUPPORT. The host interface (46_host_interface.md): the load (O53, O54), the key delivery (O52),
the reads (O57), the timers, which no step reads (O56), and what the host cannot reach (O58). -/

namespace Sys2Proof.Machine

variable {s t : State}

/-! ### The load -/

theorem resetWith_getV (p : Config.Params) (r : RegIdx) : (State.resetWith p).getV r = 0 :=
  Vector.getElem_replicate r.isLt

theorem resetWith_slot (p : Config.Params) (k : Nat) : (State.resetWith p).slot k = 0 := by
  by_cases hk : k - 1 < 16 <;> simp [State.slot, State.resetWith, hk]

/-- The glyph table at 0 to 79, as the parameter lists it (20_memory.md R64). -/
theorem Memory.resetByte_font (f : Config.Font) {a : Nat} (ha : a < 80) :
    some (Memory.resetByte f a) = f[a]? := by
  simp [Memory.resetByte, Config.fontBytes, fontByte, ha]

theorem Memory.resetByte_zero (f : Config.Font) {a : Nat} (ha : 80 ≤ a) :
    Memory.resetByte f a = 0 :=
  if_neg (Nat.not_lt.2 ha)

/-- After a load the memory outside the program holds the reset contents. -/
theorem load_next_byte_outside {bytes : List Byte} (h : load bytes s = .next t) {a : Nat}
    (ha : a < 0x200 ∨ 0x200 + bytes.length ≤ a) : t.byte a = Memory.resetByte s.cfg.font a := by
  obtain ⟨hlen, rfl⟩ := load_next.1 h
  have hout : ¬ (Config.progBase ≤ a ∧ a < Config.progBase + bytes.length) := by
    simp only [Config.progBase]
    omega
  exact (Memory.read_ofProgram _ bytes (progBase_add_le hlen) a).trans (if_neg hout)

/-- Settles O53: the memory by the laws of the program's cells, inside and outside the program, and
everything else from the reset state that a load builds. -/
theorem loadInstallsTheProgram : Obligations.LoadInstallsTheProgram := by
  intro bytes s hlen
  obtain ⟨t, hload⟩ : ∃ t, load bytes s = .next t := ⟨_, load_next.2 ⟨hlen, rfl⟩⟩
  obtain ⟨-, -, hwf⟩ := load_next_inv hload
  refine ⟨t, by rw [transact, hload, hostResult], fun k hk => ?_, fun a ha => ?_,
    fun a h80 _ hout => ?_, hwf, ?_⟩
  · exact (congrArg some (load_next_byte hload hk)).trans (List.getElem?_eq_getElem hk).symm
  · rw [load_next_byte_outside hload (.inl (by omega)), Memory.resetByte_font _ ha]
  · rw [load_next_byte_outside hload hout, Memory.resetByte_zero _ h80]
  · obtain ⟨-, rfl⟩ := load_next.1 hload
    exact ⟨resetWith_getV s.cfg, rfl, rfl, rfl, resetWith_slot s.cfg, rfl, rfl, rfl, rfl, rfl, rfl⟩

theorem load_of_overlong {bytes : List Byte} (h : 3584 < bytes.length) :
    load bytes s = .fault (.romTooLarge bytes.length) :=
  if_neg (Nat.not_le.2 h)

/-- Settles O54: an overlong load answers an error, which leaves the host's state as it was. -/
theorem overlongLoadIsRejected : Obligations.OverlongLoadIsRejected := by
  intro bytes s h
  rw [transact, load_of_overlong h, hostResult]

/-! ### The key delivery -/

/-- Settles O52, by the laws of the delivery in the two modes. -/
theorem keyDeliveryOnlyWhileWaiting : Obligations.KeyDeliveryOnlyWhileWaiting := by
  refine fun key s => ⟨fun hw => ?_, fun hw => ?_⟩
  · exact ⟨_, rfl, deliverKey_getV_toNat key hw, deliverKey_ends_wait key hw,
      frame_deliverKey key hw⟩
  · rw [transact, deliverKey_of_running key hw]

theorem Frame.refl {regs : List RegIdx} {parts : List Part} (s : State) :
    Frame regs parts s s := by
  simp [Frame]

/-- What a key delivery may change, waiting or not. -/
theorem frame_deliverKey_awaited (key : BitVec 4) (s : State) :
    Frame (if s.wait.active then [s.wait.reg] else []) [.wait] s (deliverKey key s) := by
  cases hw : s.wait.active with
  | true => exact frame_deliverKey key hw
  | false =>
    rw [deliverKey_of_running key hw]
    exact Frame.refl s

/-! ### The redraw flag and the timers -/

theorem frame_setDT (s : State) (b : Byte) : Frame [] [.DT] s (s.setDT b) := by
  simp [Frame]

theorem frame_setST (s : State) (b : Byte) : Frame [] [.ST] s (s.setST b) := by
  simp [Frame]

theorem frame_setRedraw (s : State) (b : Bool) : Frame [] [.redraw] s (s.setRedraw b) := by
  simp [Frame]

/-- Settles O57: the reads answer a field and the state they were given, and `clear_redraw` has the
frame of the flag's update. -/
theorem displayAndTimerReads : Obligations.DisplayAndTimerReads :=
  fun s => ⟨rfl, rfl, rfl, rfl, rfl, frame_setRedraw s false⟩

/-! ### No step reads a timer -/

/-- Steps agree if the two states are suspended alike and fetch alike, and the fetched instruction
agrees on them. -/
theorem agree_step {R : State → State → Prop} {s s' : State} (hwait : s'.wait = s.wait)
    (hfetch : s'.fetchInstr = s.fetchInstr) (hs : R s s')
    (hexec : ∀ i, Agree R (exec i s.advance) (exec i s'.advance)) : Agree R (step s) (step s') := by
  cases hw : s.wait.active with
  | true =>
    rw [step_of_suspended hw, step_of_suspended (hwait ▸ hw)]
    exact agree_next hs
  | false =>
    rw [step_of_running hw, step_of_running (hwait ▸ hw), hfetch]
    cases s.fetchInstr with
    | error e => rfl
    | ok i => exact hexec i

/-- The state with other timers. -/
def State.withTimers (s : State) (d e : Byte) : State := { s with DT := d, ST := e }

section
variable {d e : Byte}

theorem withTimers_putFlagged (s : State) (x : RegIdx) (r : Flagged) :
    (s.withTimers d e).putFlagged x r = (s.putFlagged x r).withTimers d e := by
  have hcfg : (s.withTimers d e).cfg = s.cfg := rfl
  rw [State.putFlagged, State.putFlagged, hcfg]
  cases s.cfg.vfOrder <;> rfl

theorem withTimers_loadRegs (s : State) (base k : Nat) :
    (s.withTimers d e).loadRegs base k = (s.loadRegs base k).withTimers d e := by
  induction k with
  | zero => rfl
  | succ k ih =>
    rw [State.loadRegs, ih]
    rfl

/-- An operation does the same whatever the timers hold and hands them on; only `LD DT,Vx` replaces
`DT`, by a register. -/
theorem exec_withTimers (i : Instr) (s : State) (d e : Byte) :
    Agree (fun t t' => ∃ d', t' = t.withTimers d' e) (exec i s) (exec i (s.withTimers d e)) := by
  cases i with
  | ldDT x => exact agree_next ⟨s.getV x, rfl⟩
  | ret => exact agree_execRet rfl fun _ => ⟨d, rfl⟩
  | call => exact agree_execCall rfl fun _ _ => ⟨d, rfl⟩
  | se x kk =>
    exact agree_next ⟨d, (apply_ite (State.withTimers · d e) (s.getV x = kk) s.skip s).symm⟩
  | sne x kk =>
    exact agree_next ⟨d, (apply_ite (State.withTimers · d e) (s.getV x ≠ kk) s.skip s).symm⟩
  | addReg | sub | shr | subn | shl => exact agree_next ⟨d, withTimers_putFlagged s _ _⟩
  | drw | stBlock | ldB => exact agree_withRun rfl ⟨d, rfl⟩
  | ldBlock => exact agree_withRun rfl ⟨d, withTimers_loadRegs s _ _⟩
  | _ => exact agree_next ⟨d, rfl⟩

/-- A step does the same whatever the timers hold: the suspension check and the fetch do not read
them either. -/
theorem step_withTimers (s : State) (d e : Byte) :
    Agree (fun t t' => ∃ d', t' = t.withTimers d' e) (step s) (step (s.withTimers d e)) :=
  agree_step rfl rfl ⟨d, rfl⟩ fun i => exec_withTimers i s.advance d e

end

/-- Settles O56: the timer transactions are the two updates, and the agreement of the two steps is
read at each outcome. -/
theorem timersNeverAffectTheProgram : Obligations.TimersNeverAffectTheProgram := by
  refine ⟨fun v s => ⟨rfl, rfl⟩, fun s d e => ?_⟩
  have hagree := step_withTimers s d e
  cases hstep : step s with
  | next t =>
    rw [hstep] at hagree
    obtain ⟨t', ht', d', rfl⟩ := hagree
    exact ⟨d', ht'⟩
  | fault | refused =>
    rw [hstep] at hagree
    exact hagree

/-! ### What the host cannot reach -/

/-- The transactions other than a load, a step and a key delivery change the timers and the redraw
flag at most. -/
theorem transact_frame {tx : Transaction} (hkey : ∀ key, tx ≠ .deliverKey key)
    (hstep : ∀ b, tx ≠ .step b) (hload : ∀ bytes, tx ≠ .load bytes) :
    Frame [] [.DT, .ST, .redraw] s (transact tx s).state := by
  cases tx with
  | load bytes => exact absurd rfl (hload bytes)
  | step b => exact absurd rfl (hstep b)
  | deliverKey key => exact absurd rfl (hkey key)
  | clearRedraw => exact (frame_setRedraw s false).mono (by simp) (by simp)
  | setDelayTimer v => exact (frame_setDT s v).mono (by simp) (by simp)
  | setSoundTimer v => exact (frame_setST s v).mono (by simp) (by simp)
  | framebuffer | redrawPending | delayTimer | soundTimer => exact Frame.refl s

/-- With a key delivery, the awaited register and the latch as well. -/
theorem transact_frame_awaited {tx : Transaction} (hstep : ∀ b, tx ≠ .step b)
    (hload : ∀ bytes, tx ≠ .load bytes) :
    Frame (if s.wait.active then [s.wait.reg] else []) [.DT, .ST, .redraw, .wait] s
      (transact tx s).state := by
  by_cases hkey : ∃ key, tx = .deliverKey key
  · obtain ⟨key, rfl⟩ := hkey
    exact (frame_deliverKey_awaited key s).mono (List.Subset.refl _) (by simp)
  · exact (transact_frame (not_exists.1 hkey) hstep hload).mono (by simp) (by simp)

theorem load_next_redraw {bytes : List Byte} (h : load bytes s = .next t) : t.redraw = false := by
  obtain ⟨-, rfl⟩ := load_next.1 h
  rfl

/-- Only a step sets the redraw flag: a load and `clear_redraw` clear it, and the others keep it. -/
theorem transact_redraw {tx : Transaction} (hstep : ∀ b, tx ≠ .step b)
    (h : (transact tx s).state.redraw = true) : s.redraw = true := by
  cases tx with
  | step b => exact absurd rfl (hstep b)
  | load bytes =>
    exact hostResult_state_of (P := fun u => u.redraw = true → s.redraw = true) id
      (fun _ hnext ht => absurd (ht.symm.trans (load_next_redraw hnext)) (by decide)) h
  | deliverKey key => exact ((frame_deliverKey_awaited key s).redraw_eq (by simp)).symm.trans h
  | clearRedraw => exact absurd h (by simp [transact, clearRedraw])
  | _ => exact h

/-- Settles O58, by the frames of the transactions and the law of the redraw flag. -/
theorem hostCannotReachTheProgramState : Obligations.HostCannotReachTheProgramState :=
  fun _ _ => ⟨transact_frame_awaited, transact_frame, transact_redraw⟩

end Sys2Proof.Machine

/-! SUPPORT. The errors (60_exceptions.md) and the state at construction (70_reset_and_hazards.md):
what an error leaves (O14), the operations' errors (O13), the error a state's next step raises and
what keeps it (O15), the unknown word (O11), and the empty load (O55). -/

namespace Sys2Proof

/-- A word that no row of the opcode map selects is none of the operations (30_encoding.md R103):
the row of a decoded instruction would select it. -/
theorem decodeWord_eq_none_of_no_row {w : Word} (h : ∀ r ∈ opcodeMap, w &&& r.mask ≠ r.pattern) :
    decodeWord w = none := by
  cases hd : decodeWord w with
  | none => rfl
  | some i =>
    have hrow : i.row.selects w = true :=
      (selects_iff_map_row (row_mem_opcodeMap i)).2 (by rw [hd, Option.map_some])
    exact absurd (beq_iff_eq.1 hrow) (h i.row (row_mem_opcodeMap i))

end Sys2Proof

namespace Sys2Proof.Machine

variable {s : State} {i : Instr} {e : Fault} {b : Byte}

/-! ### What an error leaves -/

/-- The host is told an error exactly if the load or the step raised it. -/
theorem hostResult_reply_error {r : Result} :
    (hostResult s r).reply = .error e ↔ r = .fault e := by
  cases r <;> simp [hostResult]

/-- Settles O14: only a load and a step reply with an error, and they discard what raised it. -/
theorem errorsLeaveTheStateUnchanged : Obligations.ErrorsLeaveTheStateUnchanged := by
  intro tx s e h
  cases tx with
  | load | step => exact hostResult_state_of_error h
  | _ => cases h

/-! ### The errors of the operations -/

/-- An operation that leaves the stack pointer alone, as all but `CALL` and `RET` do, can raise only
the bounds error of its run at `I`. -/
theorem opError_of_run (h : Part.sp ∉ i.partsWritten) :
    opError i s = some e ↔
      (1 ≤ i.runLength ∧ 4096 < s.I.toNat + i.runLength) ∧ e = .memOOB (max s.I.toNat 4096) := by
  unfold opError
  split
  · simp [Instr.partsWritten] at h
  · simp [Instr.partsWritten] at h
  · rw [Option.ite_none_right_eq_some, Option.some_inj, eq_comm (a := e)]
    exact and_congr_left' (and_congr_right fun _ => by omega)

/-- An operation raises exactly the error of the table of 60_exceptions.md R260: the stack
operations by their depth, the memory operations by the law of the run; the others access no byte
and complete. -/
theorem exec_fault : exec i s = .fault e ↔ opError i s = some e := by
  cases i with
  | call addr =>
    by_cases h : s.sp.val = 16
    · simp [exec_call_of_full addr h, opError, h, eq_comm]
    · simp [exec_call_of_lt addr (by omega : s.sp.val < 16), opError, h]
  | ret =>
    by_cases h : s.sp.val = 0
    · simp [exec_ret_of_empty h, opError, h, eq_comm]
    · simp [exec_ret_of_pos (Nat.one_le_iff_ne_zero.2 h), opError, h]
  | drw | stBlock | ldBlock | ldB =>
    rw [opError_of_run (by simp [Instr.partsWritten])]
    exact s.withRun_fault
  | _ =>
    rw [opError_of_run (by simp [Instr.partsWritten])]
    exact ⟨nofun, fun ⟨⟨hlen, _⟩, _⟩ => absurd hlen (Nat.not_succ_le_zero 0)⟩

/-- Settles O13: an operation with no error in the table neither faults nor is refused. -/
theorem operationsRaiseExactlyTheirErrors : Obligations.OperationsRaiseExactlyTheirErrors := by
  refine fun i s => ⟨fun e => exec_fault, fun hnone => ?_⟩
  cases h : exec i s with
  | next t => exact ⟨t, rfl⟩
  | fault e => exact absurd (hnone.symm.trans (exec_fault.1 h)) nofun
  | refused r => exact absurd h (exec_ne_refused i s r)

/-! ### The error of the next step -/

/-- The error that the next step raises, if it raises one: that of the fetch, or else that of the
fetched operation (60_exceptions.md R267). It does not read the random byte, the timers or the
redraw flag. -/
def stepError (s : State) : Option Fault :=
  if s.wait.active then none
  else
    match s.fetchInstr with
    | .error e => some e
    | .ok i => opError i s

theorem stepError_running (h : stepError s = some e) : s.wait.active = false := by
  cases hw : s.wait.active with
  | false => rfl
  | true => simp [stepError, hw] at h

/-- No operation's error depends on `pc`, which the step advances before the operation. -/
theorem opError_setPc (pc : Word) : opError i (s.setPc pc) = opError i s := rfl

theorem step_fault_iff : step s = .fault e ↔ stepError s = some e := by
  cases hw : s.wait.active with
  | true => simp [step_of_suspended hw, stepError, hw]
  | false =>
    cases hf : s.fetchInstr with
    | error e' => simp [step_of_fetch_error hw hf, stepError, hw, hf]
    | ok i => simp [step_of_fetch_ok hw hf, stepError, hw, hf, exec_fault, opError_setPc]

/-- A step transaction raises the error of the state, whatever random byte is presented. -/
theorem transact_step_error :
    (transact (.step b) s).reply = .error e ↔ stepError s = some e :=
  hostResult_reply_error.trans (step_fault_iff (s := s.setRnd b))

/-- No transaction but a successful load changes what error the next step raises: a step and an
overlong load leave the state, a key is dropped by a running core, and the others write the timers
and the redraw flag at most. -/
theorem transact_keeps_stepError {tx : Transaction} (h : stepError s = some e)
    (hload : ∀ bytes, tx = .load bytes → 3584 < bytes.length) :
    stepError (transact tx s).state = some e := by
  cases tx with
  | load bytes => rwa [overlongLoadIsRejected bytes s (hload bytes rfl)]
  | step b => rwa [errorsLeaveTheStateUnchanged _ s e (transact_step_error.2 h)]
  | deliverKey key => rwa [transact, deliverKey_of_running key (stepError_running h)]
  | _ => exact h

theorem transactAll_keeps_stepError {txs : List Transaction} (h : stepError s = some e)
    (hload : ∀ bytes, Transaction.load bytes ∈ txs → 3584 < bytes.length) :
    stepError (transactAll txs s) = some e := by
  induction txs generalizing s with
  | nil => exact h
  | cons tx txs ih =>
    refine ih (transact_keeps_stepError h fun bytes htx => hload bytes ?_)
      fun bytes hmem => hload bytes (List.mem_cons_of_mem tx hmem)
    exact htx ▸ List.mem_cons_self

/-- Settles O15: the error is a function of the state that the transactions keep. -/
theorem errorsRecurUntilALoad : Obligations.ErrorsRecurUntilALoad :=
  fun _ _ _ _ _ h hload =>
    transact_step_error.2 (transactAll_keeps_stepError (transact_step_error.1 h) hload)

/-- Settles O11: the fetched word does not decode, the error of the fetch and so of the step. -/
theorem unknownWordRaisesUnknownOpcode : Obligations.UnknownWordRaisesUnknownOpcode := by
  intro s b w hw hpc hword hrows
  obtain rfl : w = s.fetchWord := BitVec.eq_of_toNat_eq (hword.trans s.fetchWord_toNat.symm)
  have hfetch : s.fetchInstr = .error (.unknownOpcode s.fetchWord) := s.fetchInstr_error.2
    (.inr ⟨Nat.le_of_succ_le_succ hpc, decodeWord_eq_none_of_no_row hrows, rfl⟩)
  have hstep : stepWith b s = .fault (.unknownOpcode s.fetchWord) :=
    step_of_fetch_error (s := s.setRnd b) hw hfetch
  rw [transact, hstep, hostResult]

/-! ### Construction -/

/-- Settles O55: the program of no bytes has no cells, so the load leaves the reset memory. -/
theorem constructionIsTheEmptyLoad : Obligations.ConstructionIsTheEmptyLoad := by
  intro s
  have hload : load [] s = .next { State.resetWith s.cfg with rnd := s.rnd, draws := s.draws } :=
    load_next.2 ⟨Nat.zero_le _, rfl⟩
  rw [transact, hload, hostResult]

end Sys2Proof.Machine
